-- ==== Sys2Proof/Config.lean ====
section
/-! DEFINITION. The constants the source fixes (spec/00_scope.md R7) and the parameters of one instance (R8). The
parameters are an argument of the model, as 92_eei_decisions.md asks: a value of `Params` stands in every state,
and no step changes it. The model needs no free value: the spec leaves no result without one. -/

namespace Sys2Proof

/-- BIAS, the exponent bias (00 R7). -/
def Config.bias : Nat := 7

/-- FRAC, the fractional bits of every fixed-point value (00 R7). -/
def Config.frac : Nat := 3

/-- PREC_MIN (00 R7). -/
def Config.precMin : Nat := 1

/-- PREC_MAX (00 R7). -/
def Config.precMax : Nat := 15

/-- The parameters of one instance (00 R8). A capacity of `none` is unbounded. -/
structure Params where
  /-- ACC_W, the width of the accumulator register. -/
  accW : Nat
  /-- RESQ_DEPTH, the capacity of the result channel. -/
  resqDepth : Nat
  /-- OVF_CHECK: accumulator overflow also sets `ERR[1]`. -/
  ovfCheck : Bool
  /-- OPQ_CAP, the capacity of the operand channel. -/
  opqCap : Option Nat
  /-- WBQ_CAP, the capacity of the weight-bit channel. -/
  wbqCap : Option Nat
  deriving DecidableEq, Repr

/-- The defaults of 00 R8. -/
def Config.defaults : Params where
  accW := 16
  resqDepth := 4
  ovfCheck := false
  opqCap := none
  wbqCap := none

/-- A capacity that is unbounded or at least 1. -/
abbrev Config.CapLegal (cap : Option Nat) : Prop := ∀ n ∈ cap, 1 ≤ n

/-- The legal parameter values (00 R8). -/
abbrev Config.Legal (p : Params) : Prop :=
  2 ≤ p.accW ∧ 1 ≤ p.resqDepth ∧ Config.CapLegal p.opqCap ∧ Config.CapLegal p.wbqCap

end Sys2Proof
end

