-- ==== Sys2Proof/Word.lean ====
section
/-! DEFINITION. The words that select an instruction: the multiplier selector MSEL, the accumulator selector ASEL
and the host-move word HCMD (spec/30_encoding.md R100, R102, R103). -/

namespace Sys2Proof

/-- The operand word FLOATOP (30 R90). -/
abbrev OpByte := BitVec 8

/-- The multiplier-phase selector MSEL (30 R100). -/
abbrev Msel := BitVec 8

/-- The accumulator-phase selector ASEL (30 R102). -/
abbrev Asel := BitVec 4

/-- The host-move word HCMD (30 R103). -/
abbrev Hcmd := BitVec 16

/-- A word that selects an instruction: one of the three formats of 30_encoding.md section 4. -/
inductive CodeWord where
  | msel (w : Msel)
  | asel (w : Asel)
  | hcmd (w : Hcmd)
  deriving DecidableEq, Repr

end Sys2Proof
end

