-- ==== Sys2Proof/Syntax.lean ====
section
/-! DEFINITION. The instructions: one constructor for each row of spec/opcode_table.json. An instruction is one
transition of the multiplier phase, one of the accumulator phase, or one host move (spec/00_scope.md R17). -/

namespace Sys2Proof

/-- The rows of the transition table (30_encoding.md R101, R102, R103). -/
inductive Instr where
  /-- M.IDLE.WAIT, row "no valid" (40 R122). -/
  | mIdleWaitNoValid
  /-- M.IDLE.WAIT, row "valid, no operand" (40 R122). -/
  | mIdleWaitNoOperand
  /-- M.IDLE.REJECT (40 R123). -/
  | mIdleReject
  /-- M.IDLE.ACCEPT (40 R124). -/
  | mIdleAccept
  /-- M.COMPUTE.STALL (40 R125). -/
  | mComputeStall
  /-- M.COMPUTE.MAG (40 R126). -/
  | mComputeMag
  /-- M.COMPUTE.SIGN (40 R127). -/
  | mComputeSign
  /-- M.DONE.EMIT (40 R128). -/
  | mDoneEmit
  /-- M.DONE.BLOCK (40 R129). -/
  | mDoneBlock
  /-- M.RESERVED, the state code 0b11 (40 R130). -/
  | mReserved
  /-- A.IDLE (41 R151). -/
  | aIdle
  /-- A.CONSUME with its fields: `w` the weight sign, `f` the operand sign, `n` a right shift (30 R102, 41 R150). -/
  | aConsume (w f n : Bool)
  /-- H.RESET (70 R230). -/
  | hReset
  /-- H.ACC_CLEAR (42 R179). -/
  | hAccClear
  /-- H.SET_CFG (42 R175). -/
  | hSetCfg (valid : Bool) (precision refExp : BitVec 4)
  /-- H.PUSH_OP (42 R176). -/
  | hPushOp (byte : OpByte)
  /-- H.PUSH_WB (42 R177). -/
  | hPushWb (bit : Bool)
  /-- H.STEP (42 R178). -/
  | hStep (n : BitVec 13)
  /-- H.RESERVED, command 0b110, with the payload it carries (30 R103). -/
  | hReserved110 (payload : BitVec 13)
  /-- H.RESERVED, command 0b111, with the payload it carries (30 R103). -/
  | hReserved111 (payload : BitVec 13)
  deriving DecidableEq, Repr

end Sys2Proof
end

