-- ==== Sys2Proof/WellFormed.lean ====
section
/-! DEFINITION. Which instructions are well formed: `H.STEP` takes 1 to 8191 steps (spec/30_encoding.md R103), a
script with a reserved command is ill-formed (R103), and the reserved state code is no state (40 R130). -/

namespace Sys2Proof

/-- `i` may stand in a script or be selected by a state (30 R103, R104). -/
def Instr.wellFormed (i : Instr) : Bool :=
  match i with
  | .hStep n => n != 0#13
  | .mReserved => false
  | .hReserved110 _ => false
  | .hReserved111 _ => false
  | .mIdleWaitNoValid => true
  | .mIdleWaitNoOperand => true
  | .mIdleReject => true
  | .mIdleAccept => true
  | .mComputeStall => true
  | .mComputeMag => true
  | .mComputeSign => true
  | .mDoneEmit => true
  | .mDoneBlock => true
  | .aIdle => true
  | .aConsume _ _ _ => true
  | .hReset => true
  | .hAccClear => true
  | .hSetCfg _ _ _ => true
  | .hPushOp _ => true
  | .hPushWb _ => true

/-- `i` is a host move, the only kind of line a script holds (30 R106). -/
def Instr.isHostMove (i : Instr) : Bool :=
  match i with
  | .hReset => true
  | .hAccClear => true
  | .hSetCfg _ _ _ => true
  | .hPushOp _ => true
  | .hPushWb _ => true
  | .hStep _ => true
  | .hReserved110 _ => true
  | .hReserved111 _ => true
  | .mIdleWaitNoValid => false
  | .mIdleWaitNoOperand => false
  | .mIdleReject => false
  | .mIdleAccept => false
  | .mComputeStall => false
  | .mComputeMag => false
  | .mComputeSign => false
  | .mDoneEmit => false
  | .mDoneBlock => false
  | .mReserved => false
  | .aIdle => false
  | .aConsume _ _ _ => false

end Sys2Proof
end

