-- ==== Sys2Proof/Decode.lean ====
section
/-! DEFINITION. The decoder of the three selector formats and the encoder (spec/30_encoding.md R100 to R103). The
decoder is total: every MSEL and ASEL value selects one row, and an HCMD word that is no script line is rejected by
name. A reserved command is a row of the table, so it decodes, to an instruction that is not well formed. -/

namespace Sys2Proof

/-- Why a word is no line of a script (30 R103). -/
inductive Reject where
  /-- A payload bit that the command does not list is 1. -/
  | payloadNotZero
  /-- H.STEP with a count of 0. -/
  | stepCountZero
  deriving DecidableEq, Repr

/-- What the decoder answers. -/
inductive Decoded where
  | instr (i : Instr)
  | reject (r : Reject)
  deriving DecidableEq, Repr

/-- The row that an MSEL value selects (30 R100, R101). The tests stand in the order of R101. -/
def decodeMsel (w : Msel) : Instr :=
  if w.extractLsb' 6 2 = 0b00#2 then
    if w.getLsbD 5 = false then .mIdleWaitNoValid
    else if w.getLsbD 4 = false then .mIdleWaitNoOperand
    else if w.getLsbD 3 = false then .mIdleReject
    else .mIdleAccept
  else if w.extractLsb' 6 2 = 0b01#2 then
    if w.getLsbD 2 = false then .mComputeStall
    else if w.getLsbD 1 = false then .mComputeMag
    else .mComputeSign
  else if w.extractLsb' 6 2 = 0b10#2 then
    if w.getLsbD 0 = false then .mDoneEmit
    else .mDoneBlock
  else .mReserved

/-- The row that an ASEL value selects (30 R102). -/
def decodeAsel (w : Asel) : Instr :=
  if w.getLsbD 3 = false then .aIdle
  else .aConsume (w.getLsbD 2) (w.getLsbD 1) (w.getLsbD 0)

/-- `i`, when the payload bits the command does not list are 0 (30 R103). -/
def decodePlain (unlistedZero : Bool) (i : Instr) : Decoded :=
  if unlistedZero then .instr i else .reject .payloadNotZero

/-- The host move that an HCMD word encodes (30 R103). -/
def decodeHcmd (w : Hcmd) : Decoded :=
  let cmd := w.extractLsb' 13 3
  let payload := w.extractLsb' 0 13
  if cmd = 0b000#3 then decodePlain (payload == 0#13) .hReset
  else if cmd = 0b001#3 then decodePlain (payload == 0#13) .hAccClear
  else if cmd = 0b010#3 then
    decodePlain (w.extractLsb' 9 4 == 0#4) (.hSetCfg (w.getLsbD 8) (w.extractLsb' 4 4) (w.extractLsb' 0 4))
  else if cmd = 0b011#3 then decodePlain (w.extractLsb' 8 5 == 0#5) (.hPushOp (w.extractLsb' 0 8))
  else if cmd = 0b100#3 then decodePlain (w.extractLsb' 1 12 == 0#12) (.hPushWb (w.getLsbD 0))
  else if cmd = 0b101#3 then
    if payload = 0#13 then .reject .stepCountZero else .instr (.hStep payload)
  else if cmd = 0b110#3 then .instr (.hReserved110 payload)
  else .instr (.hReserved111 payload)

/-- The decoder (30 R100 to R103). -/
def decode (c : CodeWord) : Decoded :=
  match c with
  | .msel w => .instr (decodeMsel w)
  | .asel w => .instr (decodeAsel w)
  | .hcmd w => decodeHcmd w

/-- The instruction a decoded word is, if it is one. -/
def Decoded.toOption (d : Decoded) : Option Instr :=
  match d with
  | .instr i => some i
  | .reject _ => none

/-- The selector word that holds `w` in the format of that many bits: MSEL has 8, ASEL 4, HCMD 16. -/
def codeWordOfBits (nbits w : Nat) : Option CodeWord :=
  if 2 ^ nbits ≤ w then none
  else if nbits = 4 then some (.asel (BitVec.ofNat 4 w))
  else if nbits = 8 then some (.msel (BitVec.ofNat 8 w))
  else if nbits = 16 then some (.hcmd (BitVec.ofNat 16 w))
  else none

/-- The instruction the decoder reads from a word of `nbits` bits with value `w`. -/
def decodeTableWord (nbits w : Nat) : Option Instr :=
  (codeWordOfBits nbits w).bind fun c => (decode c).toOption

/-- The HCMD word with that number (30 R103, column "word"). -/
def hcmdWord (n : Nat) : CodeWord := .hcmd (BitVec.ofNat 16 n)

/-- The word of an instruction, with 0 in every bit it does not look at (30 R101, R102, R103). -/
def encode (i : Instr) : CodeWord :=
  match i with
  | .mIdleWaitNoValid => .msel 0b00000000#8
  | .mIdleWaitNoOperand => .msel 0b00100000#8
  | .mIdleReject => .msel 0b00110000#8
  | .mIdleAccept => .msel 0b00111000#8
  | .mComputeStall => .msel 0b01000000#8
  | .mComputeMag => .msel 0b01000100#8
  | .mComputeSign => .msel 0b01000110#8
  | .mDoneEmit => .msel 0b10000000#8
  | .mDoneBlock => .msel 0b10000001#8
  | .mReserved => .msel 0b11000000#8
  | .aIdle => .asel 0b0000#4
  | .aConsume w f n => .asel (BitVec.ofNat 4 (8 + 4 * w.toNat + 2 * f.toNat + n.toNat))
  | .hReset => hcmdWord 0x0000
  | .hAccClear => hcmdWord 0x2000
  | .hSetCfg valid precision refExp => hcmdWord (0x4000 + 256 * valid.toNat + 16 * precision.toNat + refExp.toNat)
  | .hPushOp byte => hcmdWord (0x6000 + byte.toNat)
  | .hPushWb bit => hcmdWord (0x8000 + bit.toNat)
  | .hStep n => hcmdWord (0xA000 + n.toNat)
  | .hReserved110 payload => hcmdWord (0xC000 + payload.toNat)
  | .hReserved111 payload => hcmdWord (0xE000 + payload.toNat)

end Sys2Proof
end

