-- ==== Sys2Proof/Machine/State.lean ====
section
/-! DEFINITION. The state: the block's tuple (spec/10_state.md R20), and beside it what the host drives and what is
still to be done (00 R17, 10 R36 to R38, 30 R106). The block has no addressable memory (20 R60). -/

namespace Sys2Proof.Machine

/-- The multiplier's states (10 R21); the reserved code 0b11 is no state (40 R130). -/
inductive MState where
  | idle
  | compute
  | done
  deriving DecidableEq, Repr

/-- IRESULT, one record of the result channel (30 R97). `mag` is two's complement. -/
structure IResult where
  mag : BitVec 19
  exp : BitVec 4
  fsign : Bool
  wsign : Bool
  mu : BitVec 4
  prec : BitVec 4
  deriving DecidableEq, Repr

/-- The state of the block, the tuple of 10 R20. -/
structure Block where
  /-- 10 R21. -/
  mstate : MState
  /-- 10 R22. -/
  fsign : Bool
  /-- 10 R23. -/
  fexp : BitVec 4
  /-- 10 R24. -/
  mu : BitVec 4
  /-- 10 R25, WORK_W = 18, unsigned. -/
  work : BitVec 18
  /-- 10 R26, MAG_W = 19, two's complement. -/
  lacc : BitVec 19
  /-- 10 R27. -/
  cnt : BitVec 4
  /-- 10 R28. -/
  prec : BitVec 4
  /-- 10 R29. -/
  wsign : Bool
  /-- ACC, the integer that the ACC_W-bit register denotes (10 R40). Its range is an invariant (log entry 5). -/
  acc : Int
  /-- OUT_VALID (10 R33). -/
  outValid : Bool
  /-- ERR (10 R34): bit 0 INVALID_PRECISION, bit 1 ACC_OVERFLOW. -/
  err : BitVec 2
  /-- OPQ, oldest first (10 R42). -/
  opq : List OpByte
  /-- WBQ, oldest first (10 R43). -/
  wbq : List Bool
  /-- RESQ, oldest first (10 R44). -/
  resq : List IResult
  deriving DecidableEq, Repr

/-- The inputs a step samples (10 R36 to R38). They are no state of the block (R39): the host drives them. -/
structure Inputs where
  valid : Bool
  precision : BitVec 4
  refExp : BitVec 4
  deriving DecidableEq, Repr

/-- Whose turn it is (20 R74, R76). `mult n` and `accum n`: that phase of a step comes next, and the current H.STEP
performs `n` further steps after it (42 R178). -/
inductive Phase where
  | host
  | mult (more : Nat)
  | accum (more : Nat)
  deriving DecidableEq, Repr

/-- One instance of the block with its host. -/
structure State where
  /-- The parameters of the instance, never changed in a run (00 R8, 10 R39). -/
  params : Params
  /-- The block (10 R20). -/
  block : Block
  /-- The values the host drives until the next H.SET_CFG (42 R175). -/
  inputs : Inputs
  /-- A H.SET_CFG stood in the script after the last H.RESET (30 R106, 70 R233). -/
  configured : Bool
  /-- Whose turn it is. -/
  phase : Phase
  /-- The script lines still to be run (30 R106), the next one first. -/
  script : List Hcmd
  deriving DecidableEq, Repr

/-- The reasons a step faults. The block has none: it has no trap, an error sets a bit of ERR and the block goes on
(60 R203, R206). Nothing raises one; safe. -/
inductive Fault
  deriving DecidableEq, Repr

/-- The reasons a step is refused. -/
inductive Refusal where
  /-- Raised by an arm of `exec` whose instruction has no meaning yet; safe. -/
  | notModelled (mnemonic : String)
  /-- Raised by a transition whose selector the state does not meet, or by a host move inside a step
  (30 R101, R102, 20 R76). `step` never raises it: it runs what the state selects. Safe. -/
  | notSelected
  /-- Raised by M.RESERVED: the code 0b11 has no behaviour, "a model that is asked about it refuses" (40 R130,
  93 U18). Safe. -/
  | reservedState
  /-- Raised by H.RESERVED: "a script containing one is ill-formed" (30 R103, 93 U20). Safe. -/
  | reservedCommand
  /-- Raised by `step` on an HCMD word that is no script line (30 R103, 93 U20), and by H.STEP 0. Safe. -/
  | illFormedMove (why : Reject)
  /-- Raised by H.PUSH_OP and H.PUSH_WB on a full channel: "the host has no such move" (20 R64, 93 U16). Safe. -/
  | pushToFullChannel
  /-- Raised by H.STEP when no CFG stands between the last RST and it (30 R106, 70 R233, 93 U22). Safe. -/
  | inputsNotDriven
  /-- Raised by A.CONSUME on a record with `prec = 0`: "a model refuses it" (41 R152, 30 R104, 93 U19). Safe. -/
  | zeroPrecisionRecord
  deriving DecidableEq, Repr

/-- The block after H.RESET (70 R230, 10 R46). -/
def Block.reset : Block where
  mstate := .idle
  fsign := false
  fexp := 0#4
  mu := 0#4
  work := 0#18
  lacc := 0#19
  cnt := 0#4
  prec := 0#4
  wsign := false
  acc := 0
  outValid := false
  err := 0b00#2
  opq := []
  wbq := []
  resq := []

/-- What stands on the input wires before the host first drives them: the spec gives no value (70 R233).
DESIGN CHOICE, log entry 3: zeros, which no step samples before a CFG. -/
def Inputs.undriven : Inputs where
  valid := false
  precision := 0#4
  refExp := 0#4

/-- A freshly built instance: the block in its reset state (70 R232), the default parameters (00 R8), nothing
driven and nothing to do (log entries 2 to 4). -/
def State.reset : State where
  params := Config.defaults
  block := Block.reset
  inputs := Inputs.undriven
  configured := false
  phase := .host
  script := []

end Sys2Proof.Machine
end

