-- ==== Sys2Proof/Machine/Operands.lean ====
section
/-! DEFINITION. The data the transitions work on: the operand byte, the weight bits, the record, and the arithmetic
of the accumulator, exact until the one wrap (spec/00_scope.md R9, R11, 30_encoding.md, 41_accumulator.md). -/

namespace Sys2Proof.Machine

/-- `wrap_N`: the integer in `-2^(N-1) .. 2^(N-1) - 1` that is congruent to `x` modulo `2^N` (00 R11). -/
def wrap (n : Nat) (x : Int) : Int := Int.bmod x (2 ^ n)

/-- The values an `n`-bit two's-complement register can hold (10 R40). -/
abbrev InRange (n : Nat) (x : Int) : Prop := -2 ^ (n - 1) ≤ x ∧ x < 2 ^ (n - 1)

/-- `x << k`, exact (00 R11). -/
def shl (x : Int) (k : Nat) : Int := x * 2 ^ k

/-- `x >>a k`: the greatest integer not above `x / 2^k` (00 R11); `/` rounds down for a positive divisor. -/
def ashr (x : Int) (k : Nat) : Int := x / 2 ^ k

/-- The three fields of a FLOATOP byte (40 R120). -/
structure Operand where
  sign : Bool
  exponent : BitVec 4
  mantissa : BitVec 3
  deriving DecidableEq, Repr

/-- DECODE: sign bit 7, exponent bits 6:3, mantissa bits 2:0 (30 R90, 40 R120). -/
def decodeOperand (b : OpByte) : Operand where
  sign := b.getLsbD 7
  exponent := b.extractLsb' 3 4
  mantissa := b.extractLsb' 0 3

/-- The mantissa unit `8 + mantissa`: the implicit leading one above the three mantissa bits (30 R105). -/
def mantissaUnit (mantissa : BitVec 3) : BitVec 4 := 0b1#1 ++ mantissa

/-- `precision` is legal: 1 to 15 (10 R37, 40 R123). -/
def precisionLegal (precision : BitVec 4) : Bool :=
  decide (Config.precMin ≤ precision.toNat) && decide (precision.toNat ≤ Config.precMax)

/-- The unsigned integer of bits given least significant first. -/
def bitsValue (bits : List Bool) : Nat :=
  match bits with
  | [] => 0
  | x :: rest => x.toNat + 2 * bitsValue rest

/-- The integer a weight stream denotes: least significant bit first, the last bit weighs `-2^(p-1)` (30 R95). -/
def weightValue (bits : List Bool) : Int :=
  match bits with
  | [] => 0
  | [x] => -(x.toNat : Int)
  | x :: y :: rest => x.toNat + 2 * weightValue (y :: rest)

/-- The stream of `w` at `p` bits: bit `i` of `w mod 2^p` for `i` from 0 (30 R95). -/
def weightBits (p : Nat) (w : Int) : List Bool :=
  match p with
  | 0 => []
  | p + 1 => (w % 2 == 1) :: weightBits p (w / 2)

/-- Sub-step 1, the weight-sign correction (41 R152): for `prec = 0` the caller refuses the record. -/
def weightSignCorrect (r : IResult) : Int :=
  if r.wsign then r.mag.toInt - shl r.mu.toNat (r.prec.toNat - 1) else r.mag.toInt

/-- Sub-step 2, the operand's sign (41 R153). -/
def floatSignCorrect (fsign : Bool) (v1 : Int) : Int := if fsign then -v1 else v1

/-- Sub-step 3, exponent alignment: exact to the left, rounding down to the right (41 R154, 30 R108). -/
def align (v2 : Int) (exp refExp : Int) : Int :=
  let shift := exp - refExp
  if 0 ≤ shift then shl v2 shift.toNat else ashr v2 (-shift).toNat

/-- The aligned contribution `v3` of a record under a reference exponent: the sub-steps in their order
(41 R150, R155). -/
def contribution (r : IResult) (refExp : BitVec 4) : Int :=
  align (floatSignCorrect r.fsign (weightSignCorrect r)) r.exp.toNat refExp.toNat

/-- The code of `mstate` in MSEL (30 R99). -/
def MState.code (m : MState) : BitVec 2 :=
  match m with
  | .idle => 0b00#2
  | .compute => 0b01#2
  | .done => 0b10#2

/-- The packed word of a record (30 R98): mag 32:14, exp 13:10, fsign 9, wsign 8, mu 7:4, prec 3:0. -/
def IResult.pack (r : IResult) : BitVec 33 :=
  r.mag ++ r.exp ++ BitVec.ofBool r.fsign ++ BitVec.ofBool r.wsign ++ r.mu ++ r.prec

/-- The record of a packed word (30 R98). -/
def IResult.unpack (w : BitVec 33) : IResult where
  mag := w.extractLsb' 14 19
  exp := w.extractLsb' 10 4
  fsign := w.getLsbD 9
  wsign := w.getLsbD 8
  mu := w.extractLsb' 4 4
  prec := w.extractLsb' 0 4

end Sys2Proof.Machine
end

