-- ==== Sys2Proof/Machine/Flags.lean ====
section
/-! DEFINITION. Status: the error bits, the overflow test and the outputs, which are functions of the state alone
(spec/10_state.md R32 to R34, 42_controller.md R171, 60_exceptions.md R200, R201). -/

namespace Sys2Proof.Machine

/-- The error causes (60 R200, R201). -/
inductive Cause where
  | invalidPrecision
  | accOverflow
  deriving DecidableEq, Repr

/-- The bit of ERR that records a cause (10 R34). -/
def Cause.mask (c : Cause) : BitVec 2 :=
  match c with
  | .invalidPrecision => 0b01#2
  | .accOverflow => 0b10#2

/-- The sum does not fit ACC_W bits: it differs from its wrapped value (41 R150, R158). -/
def overflows (accW : Nat) (sum : Int) : Bool := sum != wrap accW sum

/-- A channel of that capacity takes no further element (00 R13). Log entry 7. -/
def chanFull {α : Type} (cap : Option Nat) (q : List α) : Bool :=
  match cap with
  | none => false
  | some c => decide (c ≤ q.length)

/-- Output `ready` (10 R32). -/
def Block.ready (b : Block) : Bool := b.mstate == .idle

/-- Output `op_full` (20 R64). -/
def Block.opFull (p : Params) (b : Block) : Bool := chanFull p.opqCap b.opq

/-- Output `wb_full` (20 R64). -/
def Block.wbFull (p : Params) (b : Block) : Bool := chanFull p.wbqCap b.wbq

/-- The result channel is full, guard of M.DONE.BLOCK (20 R63). -/
def Block.resqFull (p : Params) (b : Block) : Bool := chanFull (some p.resqDepth) b.resq

/-- Output `acc`, the ACC_W bits of the register (30 R109). -/
def Block.accBits (p : Params) (b : Block) : BitVec p.accW := BitVec.ofInt p.accW b.acc

/-- The next weight bit is a magnitude bit, `cnt < prec - 1` (40 R121, R126). -/
def Block.magnitudeNext (b : Block) : Bool := decide (b.cnt.toNat + 1 < b.prec.toNat)

/-- The bit `lb` of MSEL: `cnt = prec - 1` (30 R100), and in COMPUTE also every larger `cnt`, where R121 takes
M.COMPUTE.SIGN. DEDUCED, log entry 6. -/
def Block.lastNext (b : Block) : Bool :=
  if b.mstate = .compute then !b.magnitudeNext else decide (b.cnt.toNat + 1 = b.prec.toNat)

end Sys2Proof.Machine
end

