-- ==== Sys2Proof/Machine/Ops.lean ====
section
/-! DEFINITION. The operations the meanings share: raising an error, pushing to a channel, what each transition does
to the block, the selector words, and how an instruction takes its turn (spec/00_scope.md R12 to R14). -/

namespace Sys2Proof.Machine

/-- `raise`, the block's only way to take an exception: the sticky bit of the cause is set and nothing else happens
(00 R14, 60 R206). There is no return (60 R207): only `Block.reset` clears a bit. -/
def Block.raise (c : Cause) (b : Block) : Block := { b with err := b.err ||| c.mask }

/-- `push(OPQ, w)` (42 R176). -/
def Block.pushOp (w : OpByte) (b : Block) : Block := { b with opq := b.opq ++ [w] }

/-- `push(WBQ, x)` (42 R177). -/
def Block.pushWb (x : Bool) (b : Block) : Block := { b with wbq := b.wbq ++ [x] }

/-- `ACC <- 0` (42 R179). -/
def Block.clearAcc (b : Block) : Block := { b with acc := 0 }

/-- What M.IDLE.ACCEPT does: one operand is popped and decoded, the working registers start (40 R124). -/
def Block.accept (precision : BitVec 4) (b : Block) : Block :=
  match b.opq with
  | [] => b
  | w :: rest =>
    { b with
      opq := rest
      fsign := (decodeOperand w).sign
      fexp := (decodeOperand w).exponent
      mu := mantissaUnit (decodeOperand w).mantissa
      work := (mantissaUnit (decodeOperand w).mantissa).setWidth 18
      lacc := 0#19
      cnt := 0#4
      prec := precision
      mstate := .compute }

/-- What M.COMPUTE.MAG does: one bit is popped, added if set, and `work` doubles (40 R126). -/
def Block.magnitudeBit (b : Block) : Block :=
  match b.wbq with
  | [] => b
  | x :: rest =>
    { b with
      wbq := rest
      lacc := if x then b.lacc + b.work.setWidth 19 else b.lacc
      work := b.work <<< 1
      cnt := b.cnt + 1#4 }

/-- What M.COMPUTE.SIGN does: the last bit is popped and stored (40 R127). -/
def Block.signBit (b : Block) : Block :=
  match b.wbq with
  | [] => b
  | x :: rest =>
    { b with
      wbq := rest
      wsign := x
      cnt := b.cnt + 1#4
      mstate := .done }

/-- The record that the multiplier registers make (40 R128). -/
def Block.record (b : Block) : IResult where
  mag := b.lacc
  exp := b.fexp
  fsign := b.fsign
  wsign := b.wsign
  mu := b.mu
  prec := b.prec

/-- What M.DONE.EMIT does: the record is pushed and the multiplier is idle (40 R128). -/
def Block.emit (b : Block) : Block := { b with resq := b.resq ++ [b.record], mstate := .idle }

/-- What A.IDLE does (41 R151). -/
def Block.noResult (b : Block) : Block := { b with outValid := false }

/-- `ACC <- wrap(ACC + v3)`, the pulse, and the opt-in overflow bit (41 R156 to R158). -/
def Block.accumulate (p : Params) (v3 : Int) (b : Block) : Block :=
  let added := { b with acc := wrap p.accW (b.acc + v3), outValid := true }
  if p.ovfCheck && overflows p.accW (b.acc + v3) then added.raise .accOverflow else added

/-- What A.CONSUME does with the oldest record (41 R150). `none`: there is no record, or its `prec` is 0 and the
model refuses it (41 R152, 93 U19, log entry 10). -/
def Block.consume (p : Params) (refExp : BitVec 4) (b : Block) : Option Block :=
  match b.resq with
  | [] => none
  | r :: rest =>
    if r.prec = 0#4 then none
    else some (Block.accumulate p (contribution r refExp) { b with resq := rest })

/-- MSEL, evaluated before the multiplier phase (30 R100; log entries 6 and 7). -/
def mselWord (p : Params) (i : Inputs) (b : Block) : Msel :=
  b.mstate.code ++ BitVec.ofBool i.valid ++ BitVec.ofBool (!b.opq.isEmpty)
    ++ BitVec.ofBool (precisionLegal i.precision) ++ BitVec.ofBool (!b.wbq.isEmpty)
    ++ BitVec.ofBool b.lastNext ++ BitVec.ofBool (b.resqFull p)

/-- ASEL, evaluated after the multiplier phase (30 R102); the bits it leaves open without a record are 0. -/
def aselWord (i : Inputs) (b : Block) : Asel :=
  match b.resq with
  | [] => 0b0000#4
  | r :: _ =>
    0b1#1 ++ BitVec.ofBool r.wsign ++ BitVec.ofBool r.fsign
      ++ BitVec.ofBool (decide (r.exp.toNat < i.refExp.toNat))

/-- The fields `w`, `f`, `n` are those of the oldest record (30 R102). -/
def Block.headMatches (refExp : BitVec 4) (w f n : Bool) (b : Block) : Bool :=
  match b.resq with
  | [] => false
  | r :: _ => w == r.wsign && f == r.fsign && n == decide (r.exp.toNat < refExp.toNat)

/-- Whose turn it is when a step has ended with `more` further steps to do (42 R178). -/
def Phase.afterStep (more : Nat) : Phase :=
  match more with
  | 0 => .host
  | k + 1 => .mult k

/-- A multiplier transition: in the multiplier phase, if `selected`, the block becomes `b` and the accumulator phase
of the same step comes next (42 R170). -/
def multTransition (selected : Bool) (b : Block) (s : State) : Host.Outcome State Fault Refusal :=
  match s.phase with
  | .mult more => if selected then .next { s with block := b, phase := .accum more } else .refused .notSelected
  | .host => .refused .notSelected
  | .accum _ => .refused .notSelected

/-- An accumulator transition: in the accumulator phase, if `selected`, the block becomes `b` and the step ends. -/
def accumTransition (selected : Bool) (b : Option Block) (s : State) : Host.Outcome State Fault Refusal :=
  match s.phase with
  | .accum more =>
    if selected then
      match b with
      | some b' => .next { s with block := b', phase := Phase.afterStep more }
      | none => .refused .zeroPrecisionRecord
    else .refused .notSelected
  | .host => .refused .notSelected
  | .mult _ => .refused .notSelected

/-- A host move: between steps only (20 R76, 42 R174). -/
def hostMove (answer : Host.Outcome State Fault Refusal) (s : State) : Host.Outcome State Fault Refusal :=
  match s.phase with
  | .host => answer
  | .mult _ => .refused .notSelected
  | .accum _ => .refused .notSelected

end Sys2Proof.Machine
end

