-- ==== Sys2Proof/Machine/Accumulator.lean ====
section
/-! DEFINITION. The transitions of the accumulator phase (spec/41_accumulator.md R150 to R158). -/

namespace Sys2Proof.Machine

/-- A.IDLE (41 R151). -/
def execAIdle (s : State) : Host.Outcome State Fault Refusal :=
  accumTransition s.block.resq.isEmpty (some s.block.noResult) s

/-- A.CONSUME: the fields are those of the oldest record and of the sampled `ref_exp` (41 R150, 30 R102). -/
def execAConsume (w f n : Bool) (s : State) : Host.Outcome State Fault Refusal :=
  accumTransition (s.block.headMatches s.inputs.refExp w f n) (s.block.consume s.params s.inputs.refExp) s

end Sys2Proof.Machine
end

