-- ==== Sys2Proof/Machine/HostMoves.lean ====
section
/-! DEFINITION. The host moves (spec/42_controller.md R174 to R180, 70_reset_and_hazards.md R230) and the reserved
commands (30_encoding.md R103). -/

namespace Sys2Proof.Machine

/-- H.RESET: the whole block; the script must drive the inputs again before it steps (70 R230, R233). -/
def execHReset (s : State) : Host.Outcome State Fault Refusal :=
  hostMove (.next { s with block := Block.reset, configured := false }) s

/-- H.ACC_CLEAR (42 R179). -/
def execHAccClear (s : State) : Host.Outcome State Fault Refusal :=
  hostMove (.next { s with block := s.block.clearAcc }) s

/-- H.SET_CFG: no state of the block changes, the inputs are driven (42 R175). -/
def execHSetCfg (valid : Bool) (precision refExp : BitVec 4) (s : State) : Host.Outcome State Fault Refusal :=
  hostMove (.next { s with inputs := ⟨valid, precision, refExp⟩, configured := true }) s

/-- H.PUSH_OP, admitted when OPQ is not full (42 R176, 20 R64). -/
def execHPushOp (byte : OpByte) (s : State) : Host.Outcome State Fault Refusal :=
  hostMove
    (if s.block.opFull s.params then .refused .pushToFullChannel
      else .next { s with block := s.block.pushOp byte }) s

/-- H.PUSH_WB, admitted when WBQ is not full (42 R177, 20 R64). -/
def execHPushWb (bit : Bool) (s : State) : Host.Outcome State Fault Refusal :=
  hostMove
    (if s.block.wbFull s.params then .refused .pushToFullChannel
      else .next { s with block := s.block.pushWb bit }) s

/-- H.STEP: `n` steps follow, with no other host move between them (42 R178). A CFG stands before it since the last
RST (30 R106, 70 R233). -/
def execHStep (n : BitVec 13) (s : State) : Host.Outcome State Fault Refusal :=
  hostMove
    (if n = 0#13 then .refused (.illFormedMove .stepCountZero)
      else if s.configured then .next { s with phase := .mult (n.toNat - 1) }
      else .refused .inputsNotDriven) s

/-- H.RESERVED, command 0b110: "a script containing one is ill-formed" (30 R103). -/
def execHReserved110 (_payload : BitVec 13) (_s : State) : Host.Outcome State Fault Refusal :=
  .refused .reservedCommand

/-- H.RESERVED, command 0b111: "a script containing one is ill-formed" (30 R103). -/
def execHReserved111 (_payload : BitVec 13) (_s : State) : Host.Outcome State Fault Refusal :=
  .refused .reservedCommand

end Sys2Proof.Machine
end

