-- ==== Sys2Proof/Machine/Multiplier.lean ====
section
/-! DEFINITION. The transitions of the multiplier phase, one meaning for each row of format MSEL
(spec/40_multiplier.md R122 to R130). Each names the selector of its rule and what its rule does to the block. -/

namespace Sys2Proof.Machine

/-- M.IDLE.WAIT without `valid` (40 R122). -/
def execMIdleWaitNoValid (s : State) : Host.Outcome State Fault Refusal :=
  multTransition (s.block.mstate == .idle && !s.inputs.valid) s.block s

/-- M.IDLE.WAIT with `valid` and no operand: `precision` is not examined (40 R122). -/
def execMIdleWaitNoOperand (s : State) : Host.Outcome State Fault Refusal :=
  multTransition (s.block.mstate == .idle && s.inputs.valid && s.block.opq.isEmpty) s.block s

/-- M.IDLE.REJECT: InvalidPrecision, and the operand stays (40 R123). -/
def execMIdleReject (s : State) : Host.Outcome State Fault Refusal :=
  multTransition
    (s.block.mstate == .idle && s.inputs.valid && !s.block.opq.isEmpty && !precisionLegal s.inputs.precision)
    (s.block.raise .invalidPrecision) s

/-- M.IDLE.ACCEPT (40 R124). -/
def execMIdleAccept (s : State) : Host.Outcome State Fault Refusal :=
  multTransition
    (s.block.mstate == .idle && s.inputs.valid && !s.block.opq.isEmpty && precisionLegal s.inputs.precision)
    (s.block.accept s.inputs.precision) s

/-- M.COMPUTE.STALL (40 R125). -/
def execMComputeStall (s : State) : Host.Outcome State Fault Refusal :=
  multTransition (s.block.mstate == .compute && s.block.wbq.isEmpty) s.block s

/-- M.COMPUTE.MAG (40 R126). -/
def execMComputeMag (s : State) : Host.Outcome State Fault Refusal :=
  multTransition (s.block.mstate == .compute && !s.block.wbq.isEmpty && s.block.magnitudeNext)
    s.block.magnitudeBit s

/-- M.COMPUTE.SIGN (40 R127). -/
def execMComputeSign (s : State) : Host.Outcome State Fault Refusal :=
  multTransition (s.block.mstate == .compute && !s.block.wbq.isEmpty && !s.block.magnitudeNext)
    s.block.signBit s

/-- M.DONE.EMIT: no input is examined (40 R128). -/
def execMDoneEmit (s : State) : Host.Outcome State Fault Refusal :=
  multTransition (s.block.mstate == .done && !s.block.resqFull s.params) s.block.emit s

/-- M.DONE.BLOCK (40 R129). -/
def execMDoneBlock (s : State) : Host.Outcome State Fault Refusal :=
  multTransition (s.block.mstate == .done && s.block.resqFull s.params) s.block s

/-- M.RESERVED: the code has no behaviour, and "a model that is asked about it refuses" (40 R130). -/
def execMReserved (_s : State) : Host.Outcome State Fault Refusal := .refused .reservedState

end Sys2Proof.Machine
end

