-- ==== Sys2Proof/Machine/Dispatch.lean ====
section
/-! DEFINITION. exec: one arm for each row of spec/opcode_table.json. -/

namespace Sys2Proof.Machine

open Sys2Proof

def exec (i : Instr) (s : State) : Host.Outcome State Fault Refusal :=
  match i with
  | .mIdleWaitNoValid => Sys2Proof.Machine.execMIdleWaitNoValid s
  | .mIdleWaitNoOperand => Sys2Proof.Machine.execMIdleWaitNoOperand s
  | .mIdleReject => Sys2Proof.Machine.execMIdleReject s
  | .mIdleAccept => Sys2Proof.Machine.execMIdleAccept s
  | .mComputeStall => Sys2Proof.Machine.execMComputeStall s
  | .mComputeMag => Sys2Proof.Machine.execMComputeMag s
  | .mComputeSign => Sys2Proof.Machine.execMComputeSign s
  | .mDoneEmit => Sys2Proof.Machine.execMDoneEmit s
  | .mDoneBlock => Sys2Proof.Machine.execMDoneBlock s
  | .mReserved => Sys2Proof.Machine.execMReserved s
  | .aIdle => Sys2Proof.Machine.execAIdle s
  | .aConsume w f n => Sys2Proof.Machine.execAConsume w f n s
  | .hReset => Sys2Proof.Machine.execHReset s
  | .hAccClear => Sys2Proof.Machine.execHAccClear s
  | .hSetCfg valid precision refExp => Sys2Proof.Machine.execHSetCfg valid precision refExp s
  | .hPushOp byte => Sys2Proof.Machine.execHPushOp byte s
  | .hPushWb bit => Sys2Proof.Machine.execHPushWb bit s
  | .hStep n => Sys2Proof.Machine.execHStep n s
  | .hReserved110 payload => Sys2Proof.Machine.execHReserved110 payload s
  | .hReserved111 payload => Sys2Proof.Machine.execHReserved111 payload s

end Sys2Proof.Machine
end

