-- ==== Sys2Proof/Machine/Fetch.lean ====
section
/-! DEFINITION. Which word selects the next instruction, and how a word is placed so that it is the next one. The
block fetches nothing (spec/10_state.md R31): in a phase the state itself selects (30_encoding.md R100, R102), and
between steps the next line of the host's script does (R106). -/

namespace Sys2Proof.Machine

/-- The word that selects the next instruction; `none` between steps when the host has no further move. -/
def currentWord (s : State) : Option CodeWord :=
  match s.phase with
  | .host => s.script.head?.map CodeWord.hcmd
  | .mult _ => some (.msel (mselWord s.params s.inputs s.block))
  | .accum _ => some (.asel (aselWord s.inputs s.block))

/-- Between steps the script moves past the line that is run; inside a step no line is taken. -/
def advance (s : State) : State :=
  match s.phase with
  | .host => { s with script := s.script.tail }
  | .mult _ => s
  | .accum _ => s

/-- The state of that code (30 R99); the reserved code is no state and leaves `m`. -/
def MState.ofCode (code : BitVec 2) (m : MState) : MState :=
  if code = 0b00#2 then .idle
  else if code = 0b01#2 then .compute
  else if code = 0b10#2 then .done
  else m

/-- A channel that is not empty exactly when `wanted`, `x` standing in it if it was empty. -/
def placeChannel {α : Type} (wanted : Bool) (x : α) (q : List α) : List α :=
  if wanted then (if q.isEmpty then [x] else q) else []

/-- A record of the weight 0, to fill the result channel with. -/
def placedRecord (exp : BitVec 4) (fsign wsign : Bool) : IResult where
  mag := 0#19
  exp := exp
  fsign := fsign
  wsign := wsign
  mu := 0b1000#4
  prec := 1#4

/-- `s` in its multiplier phase with MSEL equal to `w`. -/
def placeMsel (w : Msel) (s : State) : State :=
  let b := { s.block with mstate := MState.ofCode (w.extractLsb' 6 2) s.block.mstate }
  let lastNext := w.getLsbD 1
  let keep := lastNext == b.lastNext
  { s with
    phase := .mult 0
    inputs := { s.inputs with
      valid := w.getLsbD 5
      precision :=
        if w.getLsbD 3 then (if precisionLegal s.inputs.precision then s.inputs.precision else 1#4) else 0#4 }
    block := { b with
      opq := placeChannel (w.getLsbD 4) 0#8 b.opq
      wbq := placeChannel (w.getLsbD 2) false b.wbq
      cnt := if keep then b.cnt else 0#4
      prec := if keep then b.prec else if lastNext then 1#4 else 2#4
      resq :=
        if w.getLsbD 0 == b.resqFull s.params then b.resq
        else if w.getLsbD 0 then List.replicate s.params.resqDepth (placedRecord 0#4 false false)
        else [] } }

/-- `s` in its accumulator phase with ASEL equal to `w`, up to the bits that ASEL leaves open. -/
def placeAsel (w : Asel) (s : State) : State :=
  { s with
    phase := .accum 0
    inputs := { s.inputs with
      refExp := if w.getLsbD 3 && w.getLsbD 0 && s.inputs.refExp == 0#4 then 1#4 else s.inputs.refExp }
    block := { s.block with
      resq :=
        if w.getLsbD 3 then [placedRecord (if w.getLsbD 0 then 0#4 else 15#4) (w.getLsbD 1) (w.getLsbD 2)] else [] } }

/-- `s` between steps with `w` the next line of the script; before a H.STEP the inputs count as driven, since no
script may step without a CFG (30 R106). -/
def placeHcmd (w : Hcmd) (s : State) : State :=
  { s with
    phase := .host
    script := w :: s.script
    configured := s.configured || w.extractLsb' 13 3 == 0b101#3 }

/-- `s` with that word as the one that selects the next instruction. No state selects M.RESERVED (40 R130): its words
leave `s` as it is. -/
def placeWord (c : CodeWord) (s : State) : State :=
  match c with
  | .msel w => if w.extractLsb' 6 2 = 0b11#2 then s else placeMsel w s
  | .asel w => placeAsel w s
  | .hcmd w => placeHcmd w s

end Sys2Proof.Machine
end

