-- ==== Sys2Proof/Machine/Step.lean ====
section
/-! DEFINITION. One step of the model: one transition or one host move, the one the state selects
(spec/00_scope.md R17). A pipeline step of 42_controller.md R170 is two of them. -/

namespace Sys2Proof.Machine

/-- Run the instruction that the state selects. With no script line left the host makes no move, and nothing changes
(60 R215). -/
def step (s : State) : Host.Outcome State Fault Refusal :=
  match currentWord s with
  | none => .next s
  | some c =>
    match decode c with
    | .instr i => exec i (advance s)
    | .reject r => .refused (.illFormedMove r)

/-- `s` with the word of `nbits` bits and value `w` placed so that it selects the next instruction. -/
def State.withFetchWord (s : State) (nbits w : Nat) : State :=
  match codeWordOfBits nbits w with
  | none => s
  | some c => placeWord c s

end Sys2Proof.Machine
end

