-- ==== Sys2Proof/Machine/Controller.lean ====
section
/-! DEFINITION. The controller's step as a function of the block and the sampled inputs (spec/42_controller.md R170),
written from the case trees of 40_multiplier.md R121 and 41_accumulator.md R150; runs in which the host has a turn
before each step (42 R174); quiescence (42 R182). -/

namespace Sys2Proof.Machine

/-- The multiplier phase (40 R121). -/
def multiplierPhase (p : Params) (i : Inputs) (b : Block) : Block :=
  match b.mstate with
  | .idle =>
    if i.valid && !b.opq.isEmpty then
      if precisionLegal i.precision then b.accept i.precision else b.raise .invalidPrecision
    else b
  | .compute =>
    if b.wbq.isEmpty then b
    else if b.magnitudeNext then b.magnitudeBit
    else b.signBit
  | .done => if b.resq.length < p.resqDepth then b.emit else b

/-- The accumulator phase (41 R150); `none` for a record with `prec = 0`, which the model refuses (93 U19). -/
def accumulatorPhase (p : Params) (i : Inputs) (b : Block) : Option Block :=
  if b.resq.isEmpty then some b.noResult else b.consume p i.refExp

/-- One step: the multiplier phase, then the accumulator phase on what it left (42 R170). -/
def pipelineStep (p : Params) (i : Inputs) (b : Block) : Option Block :=
  accumulatorPhase p i (multiplierPhase p i b)

/-- `n` steps with the same inputs (42 R178). -/
def pipelineSteps (p : Params) (i : Inputs) (n : Nat) (b : Block) : Option Block :=
  match n with
  | 0 => some b
  | k + 1 => (pipelineStep p i b).bind (pipelineSteps p i k)

/-- What the host does before one step, and the inputs it drives in that step (42 R174, R175): the operands and the
weight bits it pushes, each channel's in their order; the two channels are unordered with each other (20 R81). -/
structure HostTurn where
  ops : List OpByte
  bits : List Bool
  inputs : Inputs
  deriving DecidableEq, Repr

/-- The pushes of a host turn (42 R176, R177), all admitted (log entry 20). -/
def Block.feed (d : HostTurn) (b : Block) : Block :=
  d.bits.foldl (fun c x => c.pushWb x) (d.ops.foldl (fun c w => c.pushOp w) b)

/-- A host turn and the step after it, which sees its pushes (20 R76). -/
def drivenStep (p : Params) (d : HostTurn) (b : Block) : Option Block := pipelineStep p d.inputs (b.feed d)

/-- A run in which the host has a turn before each step. -/
def drivenSteps (p : Params) (turns : List HostTurn) (b : Block) : Option Block :=
  match turns with
  | [] => some b
  | d :: rest => (drivenStep p d b).bind (drivenSteps p rest)

/-- The operands pushed in a run, in their order. -/
def pushedOps (turns : List HostTurn) : List OpByte := turns.flatMap HostTurn.ops

/-- The weight bits pushed in a run, in their order. -/
def pushedBits (turns : List HostTurn) : List Bool := turns.flatMap HostTurn.bits

/-- The pipeline is quiescent (42 R182). -/
def Block.quiescent (b : Block) : Bool :=
  b.mstate == .idle && b.opq.isEmpty && b.resq.isEmpty && b.wbq.isEmpty

end Sys2Proof.Machine
end

