-- ==== Sys2Proof/Machine/Ports.lean ====
section
/-! DEFINITION. The block at its ports: what one clock cycle does and what the outputs show
(spec/10_state.md R48, 42_controller.md R171, R181). `step` does not use it: it is the implementer's reading of the
host moves, stated beside the model (log entry 16). -/

namespace Sys2Proof.Machine

/-- The input ports (10 R48). -/
structure PortIn where
  rst : Bool
  accClear : Bool
  opPush : Bool
  opData : OpByte
  wbPush : Bool
  wbData : Bool
  inputs : Inputs
  deriving DecidableEq, Repr

/-- The output ports (10 R48); `acc` as the signed integer it shows. -/
structure PortOut where
  opFull : Bool
  wbFull : Bool
  ready : Bool
  outValid : Bool
  acc : Int
  err : BitVec 2
  deriving DecidableEq, Repr

/-- The outputs are functions of the state alone (42 R171). -/
def portOut (p : Params) (b : Block) : PortOut where
  opFull := b.opFull p
  wbFull := b.wbFull p
  ready := b.ready
  outValid := b.outValid
  acc := b.acc
  err := b.err

/-- The host moves of a cycle without reset, in their order: clear, then the pushes (42 R181). A push to a full
channel is ignored (93 U16). -/
def portMoves (p : Params) (x : PortIn) (b : Block) : Block :=
  let b := if x.accClear then b.clearAcc else b
  let b := if x.opPush && !b.opFull p then b.pushOp x.opData else b
  if x.wbPush && !b.wbFull p then b.pushWb x.wbData else b

/-- One clock cycle (42 R181): a reset and nothing else, or the moves and then a step. -/
def portCycle (p : Params) (x : PortIn) (b : Block) : Option Block :=
  if x.rst then some Block.reset else pipelineStep p x.inputs (portMoves p x b)

end Sys2Proof.Machine
end

