-- ==== Sys2Proof/Machine/Reading.lean ====
section
/-! DEFINITION. How the host reads the block's numbers as real numbers (spec/30_encoding.md R91, 10_state.md R41).
The block never computes them. -/

namespace Sys2Proof.Machine

/-- The value of a FLOATOP byte: always the normalized form (30 R91, R92). -/
def floatValue (b : OpByte) : Rat :=
  (if (decodeOperand b).sign then -1 else 1) * (1 + ((decodeOperand b).mantissa.toNat : Rat) / 8)
    * 2 ^ (((decodeOperand b).exponent.toNat : Int) - Config.bias)

/-- What ACC stands for under a reference exponent (10 R41). -/
def realAcc (acc : Int) (refExp : BitVec 4) : Rat :=
  (acc : Rat) * 2 ^ ((refExp.toNat : Int) - Config.bias) / 8

end Sys2Proof.Machine
end

