-- ==== Sys2Proof/Machine/Script.lean ====
section
/-! DEFINITION. Host scripts: which are well formed (spec/30_encoding.md R106), the words they assemble to (R103)
and the pseudo-lines (R107). -/

namespace Sys2Proof.Machine

/-- A CFG has been seen since the last RST, after the line `i` (30 R106). -/
def configuredAfter (configured : Bool) (i : Instr) : Bool :=
  match i with
  | .hReset => false
  | .hSetCfg _ _ _ => true
  | _ => configured

/-- The line is a step that no CFG precedes since the last RST (30 R106). -/
def steppingUndriven (configured : Bool) (i : Instr) : Bool :=
  match i with
  | .hStep _ => !configured
  | _ => false

/-- Every line is a host move with its operands in range, and a CFG precedes the first STEP after every RST; at the
start `configured` says whether one has been seen (30 R106). -/
def scriptWellFormed (configured : Bool) (lines : List Instr) : Bool :=
  match lines with
  | [] => true
  | i :: rest =>
    i.isHostMove && i.wellFormed && !steppingUndriven configured i
      && scriptWellFormed (configuredAfter configured i) rest

/-- The HCMD word of a line; a line that is no host move has none (30 R106). -/
def hcmdOf (i : Instr) : Option Hcmd :=
  match encode i with
  | .hcmd w => some w
  | .msel _ => none
  | .asel _ => none

/-- The words of a script (30 R103). -/
def assemble (lines : List Instr) : List Hcmd := lines.filterMap hcmdOf

/-! Pseudo-lines (30 R107) -/

/-- A line of a script as it is written: a line of R106, or a pseudo-line of R107. -/
inductive ScriptLine where
  /-- A line of R106. -/
  | plain (i : Instr)
  /-- `WB X0,X1,...,Xk`: at least one bit. -/
  | wb (first : Bool) (rest : List Bool)
  /-- `WBITS W`. -/
  | wbits (w : Int)
  /-- `MAC B, W`. -/
  | mac (byte : OpByte) (w : Int)
  deriving DecidableEq, Repr

/-- `w` has a stream of `p` bits: it lies in `-2^(p-1) .. 2^(p-1)-1`, which holds no integer for `p = 0`
(30 R95, R107; log entry 19). -/
abbrev WeightInRange (p : Nat) (w : Int) : Prop := 1 ≤ p ∧ InRange p w

/-- `WB X0,X1,...,Xk`: one push for each bit, in that order (30 R107). -/
def linesOfBits (bits : List Bool) : List Instr := bits.map Instr.hPushWb

/-- `WBITS W` at `p` bits; a `W` out of range has no expansion (30 R107). -/
def linesOfWeight (p : Nat) (w : Int) : Option (List Instr) :=
  if WeightInRange p w then some (linesOfBits (weightBits p w)) else none

/-- `MAC B, W` at `p` bits: `OP B`, `WBITS W`, `STEP p+2` (30 R107). -/
def linesOfMac (p : BitVec 4) (byte : OpByte) (w : Int) : Option (List Instr) :=
  (linesOfWeight p.toNat w).map fun bits => .hPushOp byte :: bits ++ [.hStep (p.setWidth 13 + 2#13)]

/-- The lines that a written line stands for, `prec` being that of the most recent CFG, if there is one (30 R107).
`none`: the line is ill-formed (log entry 19). -/
def expandLine (prec : Option (BitVec 4)) (l : ScriptLine) : Option (List Instr) :=
  match l with
  | .plain i => some [i]
  | .wb first rest => some (linesOfBits (first :: rest))
  | .wbits w => prec.bind fun p => linesOfWeight p.toNat w
  | .mac byte w => prec.bind fun p => linesOfMac p byte w

/-- The `prec` of the most recent CFG after the line `l` (30 R107). -/
def precAfter (prec : Option (BitVec 4)) (l : ScriptLine) : Option (BitVec 4) :=
  match l with
  | .plain (.hSetCfg _ p _) => some p
  | _ => prec

/-- The lines that a written script stands for (30 R107). -/
def expandScript (prec : Option (BitVec 4)) (lines : List ScriptLine) : Option (List Instr) :=
  match lines with
  | [] => some []
  | l :: rest =>
    (expandLine prec l).bind fun is => (expandScript (precAfter prec l) rest).map fun more => is ++ more

/-- The words of a written script, if it is well formed (30 R103, R106, R107). -/
def assembleScript (lines : List ScriptLine) : Option (List Hcmd) :=
  (expandScript none lines).bind fun is => if scriptWellFormed false is then some (assemble is) else none

/-- A host turn as the lines of a script: the pushes, the inputs and one step (42 R174; log entry 20). -/
def HostTurn.lines (d : HostTurn) : List Instr :=
  d.ops.map Instr.hPushOp ++ d.bits.map Instr.hPushWb
    ++ [.hSetCfg d.inputs.valid d.inputs.precision d.inputs.refExp, .hStep 1#13]

end Sys2Proof.Machine
end

