-- ==== Sys2Proof/Safety.lean ====
section
/-! DEFINITION. What claims are stated in terms of: which states count as faulted, the invariants of the reachable
state (spec/10_state.md R47, 60_exceptions.md R203) and runs. -/

namespace Sys2Proof.Safety

open Sys2Proof.Machine

/-- A state with an error bit set counts as faulted, though the block goes on: "not a final state of a correct run"
(60 R203). Every claim about a run takes `faulted` of its end to be false, or proves it (log entry 17). -/
def faulted (b : Block) : Bool := b.err != 0b00#2

/-- `lacc` is a multiple of `mu` by some value of `k` magnitude bits (40 R134). -/
abbrev MagnitudeOf (mu : BitVec 4) (k : Nat) (lacc : BitVec 19) : Prop :=
  ∃ m < 2 ^ k, lacc.toNat = mu.toNat * m

/-- A record that an emission can have made (30 R97, 40 R134). -/
abbrev RecordOk (r : IResult) : Prop :=
  1 ≤ r.prec.toNat ∧ 8 ≤ r.mu.toNat ∧ MagnitudeOf r.mu (r.prec.toNat - 1) r.mag

/-- The multiplier's registers in COMPUTE and DONE, and their bounds in every state (10 R47 (a), (b), (d)). -/
structure BlockInv (p : Params) (b : Block) : Prop where
  compute : b.mstate = .compute →
    1 ≤ b.prec.toNat ∧ b.cnt.toNat < b.prec.toNat ∧ 8 ≤ b.mu.toNat
      ∧ b.work.toNat = b.mu.toNat * 2 ^ min b.cnt.toNat (b.prec.toNat - 1)
      ∧ MagnitudeOf b.mu (min b.cnt.toNat (b.prec.toNat - 1)) b.lacc
  done : b.mstate = .done →
    1 ≤ b.prec.toNat ∧ b.cnt = b.prec ∧ 8 ≤ b.mu.toNat
      ∧ b.work.toNat = b.mu.toNat * 2 ^ (b.prec.toNat - 1)
      ∧ MagnitudeOf b.mu (b.prec.toNat - 1) b.lacc
  laccBound : b.lacc.toNat ≤ 245745
  workBound : b.work.toNat ≤ 245760
  accRange : InRange p.accW b.acc
  records : ∀ r ∈ b.resq, RecordOk r

/-- What the phase allows to stand in the result channel: nothing at a step boundary, at most the record just
emitted inside a step (10 R47 (c), 20 R77). -/
def resqFits (ph : Phase) (b : Block) : Prop :=
  match ph with
  | .host => b.resq = []
  | .mult _ => b.resq = []
  | .accum _ => b.resq.length ≤ 1

/-- The bounded channels hold no more than their capacity (00 R13). -/
structure ChannelsFit (p : Params) (b : Block) : Prop where
  opq : ∀ c ∈ p.opqCap, b.opq.length ≤ c
  wbq : ∀ c ∈ p.wbqCap, b.wbq.length ≤ c
  resq : b.resq.length ≤ p.resqDepth

/-- The invariant of the reachable state (10 R47). -/
structure Inv (s : State) : Prop where
  legal : Config.Legal s.params
  block : BlockInv s.params s.block
  channels : ChannelsFit s.params s.block
  resq : resqFits s.phase s.block

/-- `c` is the value `v`, with exponent `e`, on the scale of the reference exponent `r`: exact to the left, the greatest
integer not above the quotient to the right (41 R159). -/
def OnScale (v : Int) (e r : Nat) (c : Int) : Prop :=
  (r ≤ e → c = v * 2 ^ (e - r)) ∧ (e < r → c * 2 ^ (r - e) ≤ v ∧ v < (c + 1) * 2 ^ (r - e))

/-- How a run ends whose one consumption adds `c` (41 R156 to R158): ERR says whether the sum is out of range, if that
is checked, and where no error bit is set at the end (60 R203) the sum stands in ACC and the multiplier is IDLE. -/
structure EndsWithSum (p : Params) (c : Int) (b b' : Block) : Prop where
  err : b'.err = if p.ovfCheck && overflows p.accW (b.acc + c) then b.err ||| 0b10#2 else b.err
  result : faulted b' = false →
    b'.acc = wrap p.accW (b.acc + c) ∧ b'.outValid = true ∧ b'.mstate = .idle ∧ b'.resq = []

/-- `lines` are what the host has still to do on an instance with unbounded input channels, and they are a well-formed
script from here on (30 R106): a property of one state, at a step boundary or inside a step. -/
structure RunsScript (s : State) (lines : List Instr) : Prop where
  inv : Inv s
  opqUnbounded : s.params.opqCap = none
  wbqUnbounded : s.params.wbqCap = none
  wellFormed : scriptWellFormed s.configured lines = true
  script : s.script = assemble lines

/-- `n` steps of the model, stopping at the first refusal. -/
def run (n : Nat) (s : State) : Host.Outcome State Fault Refusal :=
  match n with
  | 0 => .next s
  | k + 1 =>
    match step s with
    | .next t => run k t
    | .fault r => .fault r
    | .refused r => .refused r

end Sys2Proof.Safety
end

