-- ==== Sys2Proof/Certificates/Slice0/Obligations.lean ====
section
/-! DEFINITION. The statements for the provers. Each docstring names the rule of spec/ that it formalises; a statement
about every state holds in states that no run reaches, under an invariant where it says so. -/

open Sys2Proof Sys2Proof.Machine Sys2Proof.Safety

/-! ## Encodings -/

/-- 30 R101 to R103: the word of every well-formed instruction decodes to it, operands included. -/
def Obligations.DecodeOfEncodeIsTheInstruction : Prop :=
  ∀ i : Instr, i.wellFormed = true → decode (encode i) = .instr i

/-- 30 R103: a script word has one meaning, so the word of what it decodes to is the word itself. -/
def Obligations.EncodeOfADecodedScriptWordIsTheWord : Prop :=
  ∀ (w : Hcmd) (i : Instr), decode (.hcmd w) = .instr i → encode i = .hcmd w

/-- 30 R99, R100, R102: the bits of the selector words. Under the invariant of 10 R47: in states that no run reaches
`lb` and `rf` follow 40 R121 (log entries 6 and 7). -/
def Obligations.SelectorWordsHoldTheirBits : Prop :=
  ∀ (p : Params) (i : Inputs) (b : Block), BlockInv p b → b.resq.length ≤ p.resqDepth →
    (mselWord p i b).extractLsb' 6 2 =
      (match b.mstate with
        | .idle => 0b00#2
        | .compute => 0b01#2
        | .done => 0b10#2) ∧
    (mselWord p i b).getLsbD 5 = i.valid ∧
    ((mselWord p i b).getLsbD 4 = true ↔ b.opq ≠ []) ∧
    ((mselWord p i b).getLsbD 3 = true ↔ 1 ≤ i.precision.toNat ∧ i.precision.toNat ≤ 15) ∧
    ((mselWord p i b).getLsbD 2 = true ↔ b.wbq ≠ []) ∧
    ((mselWord p i b).getLsbD 1 = true ↔ (b.cnt.toNat : Int) = (b.prec.toNat : Int) - 1) ∧
    ((mselWord p i b).getLsbD 0 = true ↔ b.resq.length = p.resqDepth) ∧
    ((aselWord i b).getLsbD 3 = true ↔ b.resq ≠ []) ∧
    ∀ (r : IResult) (rest : List IResult), b.resq = r :: rest →
      (aselWord i b).getLsbD 2 = r.wsign ∧ (aselWord i b).getLsbD 1 = r.fsign ∧
      ((aselWord i b).getLsbD 0 = true ↔ r.exp.toNat < i.refExp.toNat)

/-- 30 R101, R102: the rows of MSEL and ASEL by mask and match: a word decodes to a row exactly when it lies in it, every
MSEL word lies in one, and the fields of A.CONSUME are its bits. -/
def Obligations.SelectorRowsByMaskAndMatch : Prop :=
  (∀ w : Msel,
    (decodeMsel w = .mIdleWaitNoValid ↔ w &&& 0xE0#8 = 0x00#8) ∧
    (decodeMsel w = .mIdleWaitNoOperand ↔ w &&& 0xF0#8 = 0x20#8) ∧
    (decodeMsel w = .mIdleReject ↔ w &&& 0xF8#8 = 0x30#8) ∧
    (decodeMsel w = .mIdleAccept ↔ w &&& 0xF8#8 = 0x38#8) ∧
    (decodeMsel w = .mComputeStall ↔ w &&& 0xC4#8 = 0x40#8) ∧
    (decodeMsel w = .mComputeMag ↔ w &&& 0xC6#8 = 0x44#8) ∧
    (decodeMsel w = .mComputeSign ↔ w &&& 0xC6#8 = 0x46#8) ∧
    (decodeMsel w = .mDoneEmit ↔ w &&& 0xC1#8 = 0x80#8) ∧
    (decodeMsel w = .mDoneBlock ↔ w &&& 0xC1#8 = 0x81#8) ∧
    (decodeMsel w = .mReserved ↔ w &&& 0xC0#8 = 0xC0#8) ∧
    decodeMsel w ∈
      [Instr.mIdleWaitNoValid, .mIdleWaitNoOperand, .mIdleReject, .mIdleAccept, .mComputeStall, .mComputeMag,
        .mComputeSign, .mDoneEmit, .mDoneBlock, .mReserved]) ∧
  ∀ w : Asel,
    (decodeAsel w = .aIdle ↔ w &&& 0x8#4 = 0x0#4) ∧
    ∀ a f n : Bool,
      (decodeAsel w = .aConsume a f n ↔
        w &&& 0x8#4 = 0x8#4 ∧ w.getLsbD 2 = a ∧ w.getLsbD 1 = f ∧ w.getLsbD 0 = n)

/-- 30 R103, R106, R107: each script line and each pseudo-line by the numbers of its words. `WBITS W` and `MAC B, W` have
an expansion exactly when a CFG precedes and `W` is in the range of its `prec` bits; that no `W` is in range for `prec`
0, and none without a CFG, is read from the rule (log entry 19). -/
def Obligations.ScriptWordsByNumber : Prop :=
  decode (.hcmd (BitVec.ofNat 16 0x0000)) = .instr .hReset ∧
  decode (.hcmd (BitVec.ofNat 16 0x2000)) = .instr .hAccClear ∧
  (∀ (v : Bool) (p r : BitVec 4),
    decode (.hcmd (BitVec.ofNat 16 (0x4000 + 256 * v.toNat + 16 * p.toNat + r.toNat))) = .instr (.hSetCfg v p r)) ∧
  (∀ b : OpByte, decode (.hcmd (BitVec.ofNat 16 (0x6000 + b.toNat))) = .instr (.hPushOp b)) ∧
  (∀ x : Bool, decode (.hcmd (BitVec.ofNat 16 (0x8000 + x.toNat))) = .instr (.hPushWb x)) ∧
  (∀ n : BitVec 13, n ≠ 0#13 → decode (.hcmd (BitVec.ofNat 16 (0xA000 + n.toNat))) = .instr (.hStep n)) ∧
  (∀ (prec : Option (BitVec 4)) (x : Bool) (xs : List Bool),
    (expandLine prec (.wb x xs)).map assemble =
      some ((x :: xs).map fun y => BitVec.ofNat 16 (0x8000 + y.toNat))) ∧
  (∀ (p : BitVec 4) (b : OpByte) (w : Int) (bits : List Hcmd),
    bits = (List.range p.toNat).map
      (fun k => BitVec.ofNat 16 (0x8000 + ((w % 2 ^ p.toNat).toNat.testBit k).toNat)) →
    (1 ≤ p.toNat → -2 ^ (p.toNat - 1) ≤ w → w ≤ 2 ^ (p.toNat - 1) - 1 →
      (expandLine (some p) (.wbits w)).map assemble = some bits ∧
      (expandLine (some p) (.mac b w)).map assemble =
        some (BitVec.ofNat 16 (0x6000 + b.toNat) :: bits ++ [BitVec.ofNat 16 (0xA000 + (p.toNat + 2))])) ∧
    (p.toNat = 0 ∨ w < -2 ^ (p.toNat - 1) ∨ 2 ^ (p.toNat - 1) - 1 < w →
      expandLine (some p) (.wbits w) = none ∧ expandLine (some p) (.mac b w) = none)) ∧
  ∀ (b : OpByte) (w : Int), expandLine none (.wbits w) = none ∧ expandLine none (.mac b w) = none

/-- 30 R103: the decoder rejects exactly the words with a nonzero unlisted payload bit and H.STEP 0. That a script which
holds one is refused when the step meets it, and that the words of the reserved commands (0xC000 and above), which are
ill-formed too, decode to rows that are refused when run, is the model's reading (log entry 15). -/
def Obligations.WordsWithUnlistedBitsAndStepZeroAreRejected : Prop :=
  (∀ w : Hcmd, (∃ why, decode (.hcmd w) = .reject why) ↔
    (0x0000 < w.toNat ∧ w.toNat < 0x2000) ∨ (0x2000 < w.toNat ∧ w.toNat < 0x4000) ∨
    (0x4200 ≤ w.toNat ∧ w.toNat < 0x6000) ∨ (0x6100 ≤ w.toNat ∧ w.toNat < 0x8000) ∨
    (0x8002 ≤ w.toNat ∧ w.toNat < 0xA000) ∨ w.toNat = 0xA000) ∧
  (∀ (s : State) (w : Hcmd) (why : Reject), s.phase = .host → s.script.head? = some w →
    decode (.hcmd w) = .reject why → step s = .refused (.illFormedMove why))

/-- 30 R103, R104: every word of the reserved commands decodes to its row, and running it is refused. -/
def Obligations.ReservedCommandsAreRefused : Prop :=
  (∀ w : Hcmd, 0xC000 ≤ w.toNat → w.toNat < 0xE000 →
    decode (.hcmd w) = .instr (.hReserved110 (w.extractLsb' 0 13))) ∧
  (∀ w : Hcmd, 0xE000 ≤ w.toNat → decode (.hcmd w) = .instr (.hReserved111 (w.extractLsb' 0 13))) ∧
  ∀ (payload : BitVec 13) (s : State),
    exec (.hReserved110 payload) s = .refused .reservedCommand ∧
    exec (.hReserved111 payload) s = .refused .reservedCommand

/-- 40 R130: no state selects the reserved code, and M.RESERVED is refused. -/
def Obligations.ReservedStateCodeIsUnreachableAndRefused : Prop :=
  (∀ (p : Params) (i : Inputs) (b : Block), decodeMsel (mselWord p i b) ≠ .mReserved) ∧
  ∀ s : State, exec .mReserved s = .refused .reservedState

/-- Words written out from 30 R101 to R103 (the examples of 42 R175 to R178 among them). -/
def Obligations.WordsOfTheSpecDecode : Prop :=
  decode (.hcmd 0b0100000101000111#16) = .instr (.hSetCfg true 4#4 7#4) ∧
  decode (.hcmd 0b0110000010111000#16) = .instr (.hPushOp 0xB8#8) ∧
  decode (.hcmd 0b1000000000000001#16) = .instr (.hPushWb true) ∧
  decode (.hcmd 0b1010000000000110#16) = .instr (.hStep 6#13) ∧
  decode (.msel 0b01101100#8) = .instr .mComputeMag ∧
  decode (.asel 0b1111#4) = .instr (.aConsume true true true)

/-- 30 R98: the packed layout of a record, both ways, each field at its place. -/
def Obligations.RecordLayoutRoundTrip : Prop :=
  (∀ r : IResult, IResult.unpack r.pack = r ∧
    r.pack.toNat = r.mag.toNat * 2 ^ 14 + r.exp.toNat * 2 ^ 10 + r.fsign.toNat * 2 ^ 9 + r.wsign.toNat * 2 ^ 8
      + r.mu.toNat * 2 ^ 4 + r.prec.toNat) ∧
  ∀ w : BitVec 33, (IResult.unpack w).pack = w

/-! ## Data -/

/-- 40 R120, 30 R90, R105: the fields of an operand byte and its mantissa unit. -/
def Obligations.OperandFieldsAndMantissaUnit : Prop :=
  ∀ b : OpByte,
    b.toNat = 128 * (decodeOperand b).sign.toNat + 8 * (decodeOperand b).exponent.toNat
      + (decodeOperand b).mantissa.toNat ∧
    (mantissaUnit (decodeOperand b).mantissa).toNat = 8 + (decodeOperand b).mantissa.toNat

/-- 30 R93: no operand is zero; the least magnitude and the greatest, and the two bytes that have each. -/
def Obligations.NoOperandIsZero : Prop :=
  ∀ b : OpByte,
    floatValue b ≠ 0 ∧ 1 / 128 ≤ |floatValue b| ∧ |floatValue b| ≤ 480 ∧
    (|floatValue b| = 1 / 128 ↔ b = 0x00#8 ∨ b = 0x80#8) ∧
    (|floatValue b| = 480 ↔ b = 0x7F#8 ∨ b = 0xFF#8)

/-- 30 R95, 70 R243: the integer a weight stream denotes, its range, the stream of an integer in that range, and that more
copies of the sign bit at the end leave the integer as it is. -/
def Obligations.WeightStreamsAreTwosComplement : Prop :=
  (∀ (bits : List Bool) (x : Bool),
    weightValue (bits ++ [x]) =
      (∑ i ∈ Finset.range bits.length, ((bits.getD i false).toNat : Int) * 2 ^ i)
        - (x.toNat : Int) * 2 ^ bits.length ∧
    -2 ^ bits.length ≤ weightValue (bits ++ [x]) ∧ weightValue (bits ++ [x]) ≤ 2 ^ bits.length - 1) ∧
  (∀ (k : Nat) (w : Int), -2 ^ k ≤ w → w ≤ 2 ^ k - 1 →
    (weightBits (k + 1) w).length = k + 1 ∧ weightValue (weightBits (k + 1) w) = w ∧
    ∀ i < k + 1, (weightBits (k + 1) w).getD i false = (w % 2 ^ (k + 1)).toNat.testBit i) ∧
  ∀ (bits : List Bool) (x : Bool) (k : Nat),
    weightValue (bits ++ [x] ++ List.replicate k x) = weightValue (bits ++ [x])

/-- 00 R11: `wrap_N(x)` lies in the range of `N` bits, is congruent to `x`, and is the only such integer. -/
def Obligations.WrapIsTheOneCongruentValueInRange : Prop :=
  ∀ (n : Nat) (x : Int), 1 ≤ n →
    InRange n (wrap n x) ∧ (2 : Int) ^ n ∣ wrap n x - x ∧
    ∀ y : Int, InRange n y → (2 : Int) ^ n ∣ y - x → y = wrap n x

/-- 41 R161: wrapping commutes with addition, negation and left shift, and not with right shift. -/
def Obligations.WrapCommutesWithAddAndLeftShiftOnly : Prop :=
  (∀ (n : Nat) (a b : Int), wrap n (a + b) = wrap n (wrap n a + wrap n b)) ∧
  (∀ (n : Nat) (a b : Int), wrap n (a - b) = wrap n (wrap n a - wrap n b)) ∧
  (∀ (n : Nat) (a : Int), wrap n (-a) = wrap n (-wrap n a)) ∧
  (∀ (n : Nat) (a : Int) (k : Nat), wrap n (shl a k) = wrap n (shl (wrap n a) k)) ∧
  wrap 16 (ashr 65536 1) = -32768 ∧ ashr (wrap 16 65536) 1 = 0

/-- 41 R154: a left shift is exact and a right shift is the greatest integer not above the quotient. -/
def Obligations.AlignmentIsExactLeftAndRoundsDownRight : Prop :=
  ∀ (v : Int) (e r : Int),
    (r ≤ e → align v e r = v * 2 ^ (e - r).toNat) ∧
    (e < r → align v e r * 2 ^ (r - e).toNat ≤ v ∧ v < (align v e r + 1) * 2 ^ (r - e).toNat)

/-- 41 R155: negating before a right shift and after it differ by 1 exactly when the shift loses something. -/
def Obligations.NegationDoesNotCommuteWithALossyShift : Prop :=
  ∀ (v : Int) (e r : Int), e < r →
    ((2 : Int) ^ (r - e).toNat ∣ v → align (-v) e r = -align v e r) ∧
    (¬ (2 : Int) ^ (r - e).toNat ∣ v → align (-v) e r = -align v e r - 1)

/-- 40 R135: the record of an operation whose magnitude bits are `bits` and whose sign bit is `x` stands for the
product of the mantissa unit and the weight. -/
def Obligations.RecordStandsForTheProduct : Prop :=
  ∀ (r : IResult) (bits : List Bool) (x : Bool),
    r.prec.toNat = bits.length + 1 → r.wsign = x → r.mag.toNat = r.mu.toNat * bitsValue bits →
    weightSignCorrect r = r.mu.toNat * weightValue (bits ++ [x])

/-- 41 R159: without wrap and without a lossy shift, what ACC stands for grows by the operand's value times the
weight. -/
def Obligations.RealAccumulatorGrowsByTheProduct : Prop :=
  ∀ (b : OpByte) (bits : List Bool) (x : Bool) (r : IResult) (refExp : BitVec 4) (accW : Nat) (acc : Int),
    r.fsign = (decodeOperand b).sign → r.exp = (decodeOperand b).exponent →
    r.mu = mantissaUnit (decodeOperand b).mantissa → r.prec.toNat = bits.length + 1 → r.wsign = x →
    r.mag.toNat = r.mu.toNat * bitsValue bits →
    (2 : Int) ^ (refExp.toNat - r.exp.toNat) ∣ weightSignCorrect r →
    1 ≤ accW → InRange accW (acc + contribution r refExp) →
    realAcc (wrap accW (acc + contribution r refExp)) refExp =
      realAcc acc refExp + floatValue b * weightValue (bits ++ [x])

/-! ## The multiplier phase

A transition is one step of the model (00 R17). The field `phase` is the model's own (log entry 1): it says that the
accumulator phase comes next, or that the step has ended (20 R74). -/

/-- 40 R122, R125: waiting in IDLE, whatever the precision input is, and a stall in COMPUTE change nothing. That the
accumulator phase comes next is the field `phase`, the model's own (log entry 1). -/
def Obligations.WaitingAndStallingChangeNothing : Prop :=
  ∀ (s : State) (more : Nat), s.phase = .mult more →
    (s.block.mstate = .idle → s.inputs.valid = false →
      exec .mIdleWaitNoValid s = .next { s with phase := .accum more }) ∧
    (s.block.mstate = .idle → s.inputs.valid = true → s.block.opq = [] →
      exec .mIdleWaitNoOperand s = .next { s with phase := .accum more }) ∧
    (s.block.mstate = .compute → s.block.wbq = [] →
      exec .mComputeStall s = .next { s with phase := .accum more })

/-- 40 R123: an illegal precision sets bit 0 of ERR and nothing else; the operand stays. That the
accumulator phase comes next is the field `phase`, the model's own (log entry 1). -/
def Obligations.IllegalPrecisionSetsErrAndNothingElse : Prop :=
  ∀ (s : State) (more : Nat), s.phase = .mult more → s.block.mstate = .idle → s.inputs.valid = true →
    s.block.opq ≠ [] → ¬ (1 ≤ s.inputs.precision.toNat ∧ s.inputs.precision.toNat ≤ 15) →
    exec .mIdleReject s =
      .next { s with block := { s.block with err := s.block.err ||| 0b01#2 }, phase := .accum more }

/-- 40 R124: what acceptance loads, and that it leaves everything else. That the accumulator phase comes next is the
field `phase`, the model's own (log entry 1). -/
def Obligations.AcceptLoadsTheOperand : Prop :=
  ∀ (s : State) (more : Nat) (w : OpByte) (rest : List OpByte),
    s.phase = .mult more → s.block.mstate = .idle → s.inputs.valid = true → s.block.opq = w :: rest →
    1 ≤ s.inputs.precision.toNat → s.inputs.precision.toNat ≤ 15 →
    exec .mIdleAccept s =
      .next { s with
        block := { s.block with
          opq := rest
          fsign := w.getLsbD 7
          fexp := BitVec.ofNat 4 (w.toNat / 8)
          mu := BitVec.ofNat 4 (8 + w.toNat % 8)
          work := BitVec.ofNat 18 (8 + w.toNat % 8)
          lacc := 0#19
          cnt := 0#4
          prec := s.inputs.precision
          mstate := .compute }
        phase := .accum more }

/-- 40 R126: a magnitude bit adds `work` if it is 1, doubles `work` and counts, exactly; nothing else changes.
Under the invariant of 10 R47, which keeps the registers within their widths. That the accumulator phase comes next is
the field `phase`, the model's own (log entry 1). -/
def Obligations.MagnitudeBitAddsAndDoubles : Prop :=
  ∀ (s : State) (more : Nat) (x : Bool) (rest : List Bool),
    BlockInv s.params s.block → s.phase = .mult more → s.block.mstate = .compute → s.block.wbq = x :: rest →
    s.block.cnt.toNat + 1 < s.block.prec.toNat →
    ∃ (lacc : BitVec 19) (work : BitVec 18) (cnt : BitVec 4),
      exec .mComputeMag s =
        .next { s with
          block := { s.block with wbq := rest, lacc := lacc, work := work, cnt := cnt }
          phase := .accum more } ∧
      lacc.toInt = s.block.lacc.toInt + (if x then (s.block.work.toNat : Int) else 0) ∧
      work.toNat = 2 * s.block.work.toNat ∧ cnt.toNat = s.block.cnt.toNat + 1

/-- 40 R127: the sign bit is stored, the counter reaches `prec`, the multiplier is DONE; `lacc` and `work` stay.
That the accumulator phase comes next is the field `phase`, the model's own (log entry 1). -/
def Obligations.SignBitIsStoredAndEndsCompute : Prop :=
  ∀ (s : State) (more : Nat) (x : Bool) (rest : List Bool),
    s.phase = .mult more → s.block.mstate = .compute → s.block.wbq = x :: rest →
    s.block.cnt.toNat + 1 = s.block.prec.toNat →
    exec .mComputeSign s =
      .next { s with
        block := { s.block with wbq := rest, wsign := x, cnt := s.block.prec, mstate := .done }
        phase := .accum more }

/-- 40 R128: the record of the registers is pushed and the multiplier is IDLE; no input is examined. That the
accumulator phase comes next is the field `phase`, the model's own (log entry 1). -/
def Obligations.EmitPushesTheRecord : Prop :=
  ∀ (s : State) (more : Nat), s.phase = .mult more → s.block.mstate = .done →
    s.block.resq.length < s.params.resqDepth →
    exec .mDoneEmit s =
      .next { s with
        block := { s.block with
          resq := s.block.resq ++ [{
            mag := s.block.lacc, exp := s.block.fexp, fsign := s.block.fsign, wsign := s.block.wsign,
            mu := s.block.mu, prec := s.block.prec }]
          mstate := .idle }
        phase := .accum more }

/-- 40 R129: on a full result channel nothing changes, and the step leaves the channel with room. That the
accumulator phase comes next is the field `phase`, the model's own (log entry 1). -/
def Obligations.BlockHoldsTheResultForOneStep : Prop :=
  (∀ (s : State) (more : Nat), s.phase = .mult more → s.block.mstate = .done →
    s.block.resq.length = s.params.resqDepth →
    exec .mDoneBlock s = .next { s with phase := .accum more }) ∧
  ∀ (p : Params) (i : Inputs) (b : Block), Config.Legal p → b.mstate = .done → b.resq.length = p.resqDepth →
    (∀ r ∈ b.resq, r.prec ≠ 0#4) →
    ∃ b', pipelineStep p i b = some b' ∧ b'.mstate = .done ∧ b'.resq = b.resq.tail ∧
      b'.resq.length < p.resqDepth

/-! ## The accumulator phase -/

/-- 41 R151: without a record only OUT_VALID changes, to 0. That the step has ended is the field `phase`, the model's own
(log entry 1). -/
def Obligations.NoRecordClearsOutValidOnly : Prop :=
  ∀ (s : State) (more : Nat), s.phase = .accum more → s.block.resq = [] →
    exec .aIdle s =
      .next { s with block := { s.block with outValid := false }, phase := Phase.afterStep more }

/-- 41 R150, R152 to R158: a record is popped, corrected, aligned, added and wrapped, OUT_VALID becomes 1, and bit 1
of ERR is set under OVF_CHECK when the exact sum is out of range; nothing else changes. That the step has ended is the
field `phase`, the model's own (log entry 1). -/
def Obligations.ConsumeAddsTheAlignedProduct : Prop :=
  ∀ (s : State) (more : Nat) (r : IResult) (rest : List IResult) (v1 v2 v3 : Int),
    s.phase = .accum more → s.block.resq = r :: rest → 1 ≤ r.prec.toNat → 1 ≤ s.params.accW →
    v1 = r.mag.toInt - (if r.wsign then (r.mu.toNat : Int) * 2 ^ (r.prec.toNat - 1) else 0) →
    v2 = (if r.fsign then -v1 else v1) →
    (s.inputs.refExp.toNat ≤ r.exp.toNat → v3 = v2 * 2 ^ (r.exp.toNat - s.inputs.refExp.toNat)) →
    (r.exp.toNat < s.inputs.refExp.toNat →
      v3 * 2 ^ (s.inputs.refExp.toNat - r.exp.toNat) ≤ v2 ∧
      v2 < (v3 + 1) * 2 ^ (s.inputs.refExp.toNat - r.exp.toNat)) →
    ∃ (acc : Int) (err : BitVec 2),
      exec (.aConsume r.wsign r.fsign (decide (r.exp.toNat < s.inputs.refExp.toNat))) s =
        .next { s with
          block := { s.block with resq := rest, acc := acc, outValid := true, err := err }
          phase := Phase.afterStep more } ∧
      InRange s.params.accW acc ∧ (2 : Int) ^ s.params.accW ∣ acc - (s.block.acc + v3) ∧
      err.getLsbD 0 = s.block.err.getLsbD 0 ∧
      (err.getLsbD 1 = true ↔
        s.block.err.getLsbD 1 = true ∨
          s.params.ovfCheck = true ∧ ¬ InRange s.params.accW (s.block.acc + v3))

/-- 41 R152: a record whose `prec` is 0 is refused (93 U19). -/
def Obligations.RecordWithoutPrecisionIsRefused : Prop :=
  ∀ (s : State) (more : Nat) (r : IResult) (rest : List IResult),
    s.phase = .accum more → s.block.resq = r :: rest → r.prec.toNat = 0 →
    exec (.aConsume r.wsign r.fsign (decide (r.exp.toNat < s.inputs.refExp.toNat))) s =
      .refused .zeroPrecisionRecord

/-! ## The host moves -/

/-- 70 R230: H.RESET sets every element of the block; the parameters, the script and the driven values stay. That a CFG
is due before the next step is the field `configured`, the model's own (log entry 3, from 30 R106). -/
def Obligations.ResetSetsTheWholeBlock : Prop :=
  ∀ s : State, s.phase = .host →
    exec .hReset s =
      .next { s with
        block := {
          mstate := .idle, fsign := false, fexp := 0#4, mu := 0#4, work := 0#18, lacc := 0#19, cnt := 0#4
          prec := 0#4, wsign := false, acc := 0, outValid := false, err := 0b00#2, opq := [], wbq := [], resq := [] }
        configured := false }

/-- 42 R179: H.ACC_CLEAR sets ACC to 0 and nothing else. -/
def Obligations.ClearSetsAccOnly : Prop :=
  ∀ s : State, s.phase = .host → exec .hAccClear s = .next { s with block := { s.block with acc := 0 } }

/-- 42 R175: H.SET_CFG changes no state of the block and sets the sampled values. The field `configured` is the model's own
(log entry 3, from 30 R106). -/
def Obligations.SetCfgDrivesTheInputsOnly : Prop :=
  ∀ (s : State) (v : Bool) (p r : BitVec 4), s.phase = .host →
    exec (.hSetCfg v p r) s =
      .next { s with inputs := { valid := v, precision := p, refExp := r }, configured := true }

/-- 42 R176, R177: a push appends to its channel and changes nothing else, whatever the value, when the channel has
room. -/
def Obligations.PushesAppendToTheirChannel : Prop :=
  ∀ s : State, s.phase = .host →
    (∀ w : OpByte, (∀ c ∈ s.params.opqCap, s.block.opq.length < c) →
      exec (.hPushOp w) s = .next { s with block := { s.block with opq := s.block.opq ++ [w] } }) ∧
    (∀ x : Bool, (∀ c ∈ s.params.wbqCap, s.block.wbq.length < c) →
      exec (.hPushWb x) s = .next { s with block := { s.block with wbq := s.block.wbq ++ [x] } })

/-- 20 R64: a push to a full input channel is not admitted, and with an unbounded channel there is none. -/
def Obligations.PushToAFullChannelIsNotAdmitted : Prop :=
  ∀ s : State, s.phase = .host →
    (∀ (c : Nat) (w : OpByte), s.params.opqCap = some c → s.block.opq.length = c →
      exec (.hPushOp w) s = .refused .pushToFullChannel) ∧
    (∀ (c : Nat) (x : Bool), s.params.wbqCap = some c → s.block.wbq.length = c →
      exec (.hPushWb x) s = .refused .pushToFullChannel) ∧
    (s.params.opqCap = none → s.block.opFull s.params = false) ∧
    (s.params.wbqCap = none → s.block.wbFull s.params = false)

/-- 42 R178, 30 R106: after a CFG, H.STEP starts `n` steps and changes nothing else; without one it is refused. The fields
`phase` and `configured` are the model's own (log entries 1 and 3). -/
def Obligations.StepMoveStartsItsSteps : Prop :=
  ∀ (s : State) (n : BitVec 13), s.phase = .host → n ≠ 0#13 →
    (s.configured = true → exec (.hStep n) s = .next { s with phase := .mult (n.toNat - 1) }) ∧
    (s.configured = false → exec (.hStep n) s = .refused .inputsNotDriven)

/-! ## Reset and the machine as a whole -/

/-- 10 R46: the block after reset. -/
def Obligations.ResetLeavesTheValuesOfTheTable : Prop :=
  State.reset.block.mstate = .idle ∧
  (State.reset.block.fsign, State.reset.block.fexp, State.reset.block.mu, State.reset.block.prec) =
    (false, 0#4, 0#4, 0#4) ∧
  (State.reset.block.work, State.reset.block.lacc, State.reset.block.cnt) = (0#18, 0#19, 0#4) ∧
  State.reset.block.wsign = false ∧ State.reset.block.acc = 0 ∧ State.reset.block.outValid = false ∧
  State.reset.block.err = 0b00#2 ∧ State.reset.block.opq = [] ∧ State.reset.block.wbq = [] ∧
  State.reset.block.resq = []

/-- A step runs the instruction that the state selects: by MSEL in the multiplier phase, by ASEL in the accumulator
phase, by the next script line between steps, which the script then moves past; with no line left nothing changes. -/
def Obligations.StepRunsTheSelectedInstruction : Prop :=
  (∀ (s : State) (more : Nat), s.phase = .mult more →
    step s = exec (decodeMsel (mselWord s.params s.inputs s.block)) s) ∧
  (∀ (s : State) (more : Nat), s.phase = .accum more →
    step s = exec (decodeAsel (aselWord s.inputs s.block)) s) ∧
  (∀ (s : State) (w : Hcmd) (rest : List Hcmd) (i : Instr), s.phase = .host → s.script = w :: rest →
    decode (.hcmd w) = .instr i → step s = exec i { s with script := rest }) ∧
  ∀ s : State, s.phase = .host → s.script = [] → step s = .next s

/-- 30 R101, R102: the selector words and the selectors of the rules agree, so that a step never runs a transition
whose selector its state does not meet, nor a host move inside a step (20 R76). -/
def Obligations.StepNeverRunsAnUnselectedInstruction : Prop :=
  ∀ s : State, step s ≠ .refused .notSelected

/-- 42 R170: inside a step there is a result for every state and every input, but for the record that the model
refuses (41 R152). -/
def Obligations.EveryPhaseHasAResult : Prop :=
  ∀ s : State, s.phase ≠ .host → (∀ r ∈ s.block.resq, r.prec ≠ 0#4) → ∃ t, step s = .next t

/-- The invariant of 10 R47 holds after reset. -/
def Obligations.InvariantHoldsAtReset : Prop := Inv State.reset

/-- 10 R47: every step keeps the invariant, from every state that meets it. -/
def Obligations.EveryStepKeepsTheInvariant : Prop :=
  ∀ s t : State, Inv s → step s = .next t → Inv t

/-- 10 R34, 60 R203: no step clears a bit of ERR but one that runs H.RESET. -/
def Obligations.ErrorBitsAreSticky : Prop :=
  ∀ (s t : State) (k : Nat), step s = .next t → currentWord s ≠ some (encode .hReset) →
    s.block.err.getLsbD k = true → t.block.err.getLsbD k = true

/-- 60 R200: InvalidPrecision is raised by M.IDLE.REJECT alone, in IDLE with `valid`, an operand and an illegal
precision. -/
def Obligations.OnlyRejectRaisesInvalidPrecision : Prop :=
  ∀ s t : State, step s = .next t → s.block.err.getLsbD 0 = false → t.block.err.getLsbD 0 = true →
    (∃ w, currentWord s = some (.msel w) ∧ decodeMsel w = .mIdleReject) ∧ s.block.mstate = .idle ∧
      s.inputs.valid = true ∧ s.block.opq ≠ [] ∧
      ¬ (1 ≤ s.inputs.precision.toNat ∧ s.inputs.precision.toNat ≤ 15)

/-- 60 R201: AccOverflow is raised under OVF_CHECK alone, by A.CONSUME, when the exact sum is not representable. -/
def Obligations.OnlyACheckedOverflowRaisesAccOverflow : Prop :=
  ∀ s t : State, 1 ≤ s.params.accW → step s = .next t → s.block.err.getLsbD 1 = false →
    t.block.err.getLsbD 1 = true →
    s.params.ovfCheck = true ∧ ∃ (more : Nat) (r : IResult) (rest : List IResult),
      s.phase = .accum more ∧ s.block.resq = r :: rest ∧
      ¬ InRange s.params.accW (s.block.acc + contribution r s.inputs.refExp)

/-- 10 R40: ACC is written by A.CONSUME, H.ACC_CLEAR and H.RESET, and by nothing else. -/
def Obligations.AccumulatorHasThreeWriters : Prop :=
  ∀ s t : State, step s = .next t → t.block.acc ≠ s.block.acc →
    (∃ (w f n : Bool) (c : Asel), currentWord s = some (.asel c) ∧ decodeAsel c = .aConsume w f n) ∨
    currentWord s = some (encode .hAccClear) ∨ currentWord s = some (encode .hReset)

/-- 10 R30: the accumulator phase and every host move except H.RESET touch no multiplier register. -/
def Obligations.OnlyTheMultiplierPhaseWritesItsRegisters : Prop :=
  ∀ s t : State, step s = .next t → (∀ more, s.phase ≠ .mult more) → currentWord s ≠ some (encode .hReset) →
    t.block.mstate = s.block.mstate ∧ t.block.fsign = s.block.fsign ∧ t.block.fexp = s.block.fexp ∧
    t.block.mu = s.block.mu ∧ t.block.work = s.block.work ∧ t.block.lacc = s.block.lacc ∧
    t.block.cnt = s.block.cnt ∧ t.block.prec = s.block.prec ∧ t.block.wsign = s.block.wsign

/-- 10 R39, 42 R175: no step changes a parameter, and the driven values change by H.SET_CFG alone. -/
def Obligations.ParametersNeverChangeAndInputsOnlyByCfg : Prop :=
  ∀ s t : State, step s = .next t →
    t.params = s.params ∧
    (t.inputs ≠ s.inputs →
      currentWord s = some (encode (.hSetCfg t.inputs.valid t.inputs.precision t.inputs.refExp)))

/-- 10 R32: `ready` is 1 exactly when the multiplier phase that comes next takes an IDLE branch. -/
def Obligations.ReadySaysThatTheNextBranchIsIdle : Prop :=
  ∀ (p : Params) (i : Inputs) (b : Block),
    (portOut p b).ready = true ↔
      decodeMsel (mselWord p i b) ∈
        [Instr.mIdleWaitNoValid, .mIdleWaitNoOperand, .mIdleReject, .mIdleAccept]

/-! ## Steps of the pipeline -/

/-- 42 R172: an input that a phase does not sample does not matter to it: `valid` outside IDLE, `precision` outside IDLE
and in IDLE without `valid` or without an operand, `ref_exp` without a record; and so for the whole step. -/
def Obligations.UnsampledInputsDoNotMatter : Prop :=
  ∀ (p : Params) (i j : Inputs) (b : Block),
    (b.mstate ≠ .idle → multiplierPhase p i b = multiplierPhase p j b) ∧
    (b.mstate = .idle → i.valid = j.valid → i.valid = false ∨ b.opq = [] →
      multiplierPhase p i b = multiplierPhase p j b) ∧
    (i.valid = j.valid → i.precision = j.precision → multiplierPhase p i b = multiplierPhase p j b) ∧
    (b.resq = [] → accumulatorPhase p i b = accumulatorPhase p j b) ∧
    (i.refExp = j.refExp → accumulatorPhase p i b = accumulatorPhase p j b) ∧
    ((b.mstate = .idle → i.valid = j.valid) →
      (b.mstate = .idle → i.valid = true → b.opq ≠ [] → i.precision = j.precision) →
      ((multiplierPhase p i b).resq ≠ [] → i.refExp = j.refExp) →
      pipelineStep p i b = pipelineStep p j b)

/-- 42 R170, 40 R121, 41 R150: the two transitions that a state selects, one after the other, are one step of the
controller, from every state. -/
def Obligations.TwoTransitionsAreOneStep : Prop :=
  ∀ (s : State) (more : Nat), s.phase = .mult more →
    run 2 s =
      match pipelineStep s.params s.inputs s.block with
      | some b => .next { s with block := b, phase := Phase.afterStep more }
      | none => .refused .zeroPrecisionRecord

/-- 42 R178, R174: H.STEP `n` at the head of a script leads to the block after `n` steps with the current inputs, between
steps again, with the rest of the script to run; and the lines of a host turn lead to the block after its driven step
(log entry 20). Claims about runs: no error bit is set at the end (60 R203). -/
def Obligations.StepMovePerformsItsSteps : Prop :=
  (∀ (s : State) (w : Hcmd) (n : BitVec 13) (rest : List Hcmd) (b : Block), s.phase = .host →
    s.configured = true → decode (.hcmd w) = .instr (.hStep n) → s.script = w :: rest →
    pipelineSteps s.params s.inputs n.toNat s.block = some b → faulted b = false →
    run (2 * n.toNat + 1) s = .next { s with block := b, script := rest }) ∧
  ∀ (s : State) (d : HostTurn) (rest : List Hcmd) (b : Block), s.phase = .host →
    s.params.opqCap = none → s.params.wbqCap = none → s.script = assemble d.lines ++ rest →
    drivenStep s.params d s.block = some b → faulted b = false →
    run (d.ops.length + d.bits.length + 4) s =
      .next { s with block := b, inputs := d.inputs, configured := true, script := rest }

/-- 70 R241, R249, 41 R159. First: the multiplier in IDLE before a run of `precision + 2` steps, the operand and `valid`
and a legal precision there in the first, and each bit `k` pushed before the step that takes it: the run ends with the
sum of ACC and the product, aligned to the `ref_exp` of the last step and wrapped. Second: the same from every COMPUTE
state that meets the invariant, `had` being the magnitude bits taken before. Third: a step in which an operand, `valid` or
a bit is missing makes its pushes and clears OUT_VALID, and changes nothing else (a claim about one step, with any ERR);
so with the next step it is the next step alone, its pushes made before it. Claims about runs: what is said of the end
is said where no error bit is set there (60 R203). -/
def Obligations.OneOperationAddsItsProduct : Prop :=
  (∀ (p : Params) (first last : HostTurn) (mid : List HostTurn) (b : Block) (w : OpByte) (ops : List OpByte)
      (bits more : List Bool) (x : Bool) (c : Int),
    Config.Legal p → mid.length = bits.length + 1 → first.inputs.valid = true →
    first.inputs.precision.toNat = bits.length + 1 → b.mstate = .idle → b.resq = [] → b.opq ++ first.ops = w :: ops →
    b.wbq ++ pushedBits (first :: mid ++ [last]) = bits ++ x :: more →
    (∀ k ≤ bits.length, k < (b.wbq ++ pushedBits ((first :: mid).take (k + 2))).length) →
    OnScale ((if w.getLsbD 7 then -1 else 1) * (8 + (w.toNat : Int) % 8) * weightValue (bits ++ [x]))
      (w.toNat / 8 % 16) last.inputs.refExp.toNat c →
    ∃ b', drivenSteps p (first :: mid ++ [last]) b = some b' ∧ EndsWithSum p c b b' ∧
      (faulted b' = false → b'.opq = ops ++ pushedOps (mid ++ [last]) ∧ b'.wbq = more)) ∧
  (∀ (p : Params) (mid : List HostTurn) (last : HostTurn) (b : Block) (had bits more : List Bool) (x : Bool) (c : Int),
    Config.Legal p → BlockInv p b → b.mstate = .compute → b.resq = [] → had.length = b.cnt.toNat →
    b.lacc.toNat = b.mu.toNat * bitsValue had → had.length + bits.length + 1 = b.prec.toNat →
    mid.length = bits.length + 1 → b.wbq ++ pushedBits (mid ++ [last]) = bits ++ x :: more →
    (∀ k ≤ bits.length, k < (b.wbq ++ pushedBits (mid.take (k + 1))).length) →
    OnScale ((if b.fsign then -1 else 1) * b.mu.toNat * weightValue (had ++ bits ++ [x])) b.fexp.toNat
      last.inputs.refExp.toNat c →
    ∃ b', drivenSteps p (mid ++ [last]) b = some b' ∧ EndsWithSum p c b b' ∧
      (faulted b' = false → b'.opq = b.opq ++ pushedOps (mid ++ [last]) ∧ b'.wbq = more)) ∧
  ∀ (p : Params) (d e : HostTurn) (b : Block), b.resq = [] →
    (b.mstate = .compute ∧ b.wbq ++ d.bits = [] ∨
      b.mstate = .idle ∧ (d.inputs.valid = false ∨ b.opq ++ d.ops = [])) →
    drivenStep p d b = some { b with opq := b.opq ++ d.ops, wbq := b.wbq ++ d.bits, outValid := false } ∧
    ∀ b', faulted b' = false →
      (drivenSteps p [d, e] b = some b' ↔
        drivenSteps p [{ ops := d.ops ++ e.ops, bits := d.bits ++ e.bits, inputs := e.inputs }] b = some b')

/-- 70 R241, 20 R68: from IDLE with the operand, `valid` and a legal precision in the first step: after each of the first
`precision + 1` steps, whatever bits have come, and after every later step for which bits are missing, `ready` and
`out_valid` are 0 and ACC stays. A claim about a run: no error bit is set before it, nor at its end (60 R203). -/
def Obligations.NoResultBeforeTheLastStepOfAnOperation : Prop :=
  ∀ (p : Params) (first : HostTurn) (rest : List HostTurn) (b : Block),
    faulted b = false → first.inputs.valid = true → 1 ≤ first.inputs.precision.toNat → b.mstate = .idle → b.resq = [] →
    b.opq ++ first.ops ≠ [] →
    rest.length ≤ first.inputs.precision.toNat ∨
      (b.wbq ++ pushedBits (first :: rest)).length < first.inputs.precision.toNat →
    ∃ b', drivenSteps p (first :: rest) b = some b' ∧ faulted b' = false ∧ b'.ready = false ∧ b'.outValid = false ∧
      b'.acc = b.acc

/-- 20 R77: the occupancy of the result channel never rises over a step; from an empty result channel a step leaves it
empty and does not depend on its depth, and so for the results of a run, a result being a block in which no error bit
is set (60 R203). -/
def Obligations.ResultChannelNeverGrowsAndItsDepthDoesNotMatter : Prop :=
  (∀ (p : Params) (i : Inputs) (b b' : Block), pipelineStep p i b = some b' → b'.resq.length ≤ b.resq.length) ∧
  ∀ (p : Params) (i : Inputs) (b : Block) (d : Nat), 1 ≤ d → 1 ≤ p.resqDepth → b.resq = [] →
    pipelineStep { p with resqDepth := d } i b = pipelineStep p i b ∧
    (∀ b', pipelineStep p i b = some b' → b'.resq = []) ∧
    ∀ (n : Nat) (b' : Block), faulted b' = false →
      (pipelineSteps { p with resqDepth := d } i n b = some b' ↔ pipelineSteps p i n b = some b')

/-- 42 R173: from an empty result channel A.CONSUME shares a step with M.DONE.EMIT and with nothing else, and
M.DONE.BLOCK is not taken. -/
def Obligations.ConsumptionComesWithEmissionOnly : Prop :=
  ∀ (s t : State) (more : Nat), s.phase = .mult more → s.block.resq = [] → 1 ≤ s.params.resqDepth →
    step s = .next t →
    decodeMsel (mselWord s.params s.inputs s.block) ≠ .mDoneBlock ∧
    ((∃ w f n, decodeAsel (aselWord t.inputs t.block) = .aConsume w f n) ↔
      decodeMsel (mselWord s.params s.inputs s.block) = .mDoneEmit)

/-- 42 R182: a step leaves a quiescent pipeline as it is, but for OUT_VALID, which becomes 0; and so does a run in which
no error bit is set (60 R203). -/
def Obligations.QuiescentPipelineStaysAsItIs : Prop :=
  ∀ (p : Params) (i : Inputs) (b : Block), b.quiescent = true →
    pipelineStep p i b = some { b with outValid := false } ∧
    ∀ n : Nat, 1 ≤ n → faulted b = false → pipelineSteps p i n b = some { b with outValid := false }

/-- 41 R158: OVF_CHECK changes nothing but bit 1 of ERR. -/
def Obligations.OverflowCheckChangesOnlyItsBit : Prop :=
  ∀ (p : Params) (i : Inputs) (b b' b'' : Block),
    pipelineStep { p with ovfCheck := false } i b = some b' →
    pipelineStep { p with ovfCheck := true } i b = some b'' →
    b'' = { b' with err := b''.err } ∧ b''.err.getLsbD 0 = b'.err.getLsbD 0 ∧
      (b'.err.getLsbD 1 = true → b''.err.getLsbD 1 = true)

/-- 42 R181, 93 U16: a cycle at the ports is a reset and nothing else, or the host moves of the asserted ports in their
order, a push to a full channel ignored, and then a step. -/
def Obligations.PortCycleIsItsHostMovesThenAStep : Prop :=
  ∀ (s : State) (x : PortIn), s.phase = .host →
    (x.rst = true → portCycle s.params x s.block = some Block.reset) ∧
    (x.rst = false →
      ∃ s1 s2 s3 : State,
        (if x.accClear then exec .hAccClear s else .next s) = .next s1 ∧
        (if x.opPush && !s.block.opFull s.params then exec (.hPushOp x.opData) s1 else .next s1) = .next s2 ∧
        (if x.wbPush && !s.block.wbFull s.params then exec (.hPushWb x.wbData) s2 else .next s2) = .next s3 ∧
        portCycle s.params x s.block = pipelineStep s.params x.inputs s3.block)

/-- 30 R106: a well-formed script on an instance with unbounded input channels never stops. First, of one step, with any
ERR: from every state that meets the invariant and has a well-formed script to run there is a next state, and it is such
a state again. Then of runs (60 R203): from every state of a run in which no error bit is set the run goes on; and where
no overflow is checked and every precision driven is legal, a run that starts without an error bit goes on and ends
without one (60 R200, R201). -/
def Obligations.WellFormedScriptsAreNeverRefused : Prop :=
  ∀ (s : State) (lines : List Instr), RunsScript s lines →
    (∃ (t : State) (rest : List Instr), step s = .next t ∧ rest <:+ lines ∧ RunsScript t rest) ∧
    (∀ (n : Nat) (t : State), run n s = .next t → faulted t.block = false → ∃ u, step t = .next u) ∧
    (faulted s.block = false → s.params.ovfCheck = false →
      ((s.phase = .host → s.configured = true) → 1 ≤ s.inputs.precision.toNat) →
      (∀ (v : Bool) (p r : BitVec 4), Instr.hSetCfg v p r ∈ lines → 1 ≤ p.toNat) →
      ∀ n : Nat, ∃ t, run n s = .next t ∧ faulted t.block = false)

/-- 60 R205: from an empty result channel the two errors are not raised in one step. -/
def Obligations.TheTwoErrorsAreNotRaisedTogether : Prop :=
  ∀ (p : Params) (i : Inputs) (b b' : Block), b.resq = [] → pipelineStep p i b = some b' →
    b.err.getLsbD 0 = false → b.err.getLsbD 1 = false →
    ¬ (b'.err.getLsbD 0 = true ∧ b'.err.getLsbD 1 = true)
end

