-- ==== Sys2Proof/Laws/Arith.lean ====
section
/-! SUPPORT. The arithmetic of the data: shifts and alignment (spec/00_scope.md R11), and the numbers that bit streams
denote (30_encoding.md R95). -/

namespace Sys2Proof.Machine

theorem precisionLegal_iff (p : BitVec 4) : precisionLegal p = true ↔ 1 ≤ p.toNat ∧ p.toNat ≤ 15 := by
  unfold precisionLegal
  rw [Bool.and_eq_true, decide_eq_true_iff, decide_eq_true_iff]
  rfl

/-- `>>a` rounds down. -/
theorem ashr_bounds (v : Int) (k : Nat) : ashr v k * 2 ^ k ≤ v ∧ v < (ashr v k + 1) * 2 ^ k := by
  have h : (0 : Int) < 2 ^ k := by positivity
  have h1 := Int.mul_ediv_add_emod v (2 ^ k)
  have h2 := Int.emod_nonneg v h.ne'
  have h3 := Int.emod_lt_of_pos v h
  unfold ashr
  constructor <;> nlinarith

/-- Only one integer rounds a quotient down. -/
theorem floor_unique {v c d k : Int} (hk : 0 < k) (hc : c * k ≤ v) (hc' : v < (c + 1) * k) (hd : d * k ≤ v)
    (hd' : v < (d + 1) * k) : c = d := by
  by_contra hne
  rcases Int.lt_or_gt_of_ne hne with h | h <;> nlinarith

theorem align_left {v e r : Int} (h : r ≤ e) : align v e r = v * 2 ^ (e - r).toNat := by
  simp only [align, shl]
  rw [if_pos (by omega)]

theorem align_right {v e r : Int} (h : e < r) : align v e r = ashr v (r - e).toNat := by
  simp only [align]
  rw [if_neg (by omega)]
  congr 2
  omega

/-- A weight is its magnitude bits less the weight of the sign bit. -/
theorem weightValue_append (bits : List Bool) (x : Bool) :
    weightValue (bits ++ [x]) = (bitsValue bits : Int) - x.toNat * 2 ^ bits.length := by
  induction bits with
  | nil => simp [weightValue, bitsValue]
  | cons a l ih =>
    cases hl : l ++ [x] with
    | nil => simp at hl
    | cons c t =>
      simp only [List.cons_append, hl, weightValue, bitsValue, List.length_cons]
      rw [← hl, ih]
      push_cast
      ring

theorem bitsValue_lt (bits : List Bool) : bitsValue bits < 2 ^ bits.length := by
  induction bits with
  | nil => simp [bitsValue]
  | cons a l ih =>
    simp only [bitsValue, List.length_cons, pow_succ]
    have := Bool.toNat_le a
    omega

@[simp] theorem weightBits_length (k : Nat) (w : Int) : (weightBits k w).length = k := by
  induction k generalizing w with
  | zero => rfl
  | succ k ih => simp [weightBits, ih]

/-- A magnitude below `2^18` reads the same with and without sign. -/
theorem toInt_of_lt {m : BitVec 19} (h : m.toNat < 2 ^ 18) : m.toInt = m.toNat := by
  rw [BitVec.toInt_eq_toNat_cond, if_pos (by omega)]

end Sys2Proof.Machine
end

