-- ==== Sys2Proof/Laws/Decode.lean ====
section
/-! SUPPORT. Fields and bits of a word as quotients and remainders of its number, so that a question about an encoding
becomes one about numbers; and the number of a word written by its number. -/

namespace Sys2Proof.Laws

theorem extractLsb'_toNat_eq {n : Nat} (w : BitVec n) (start len : Nat) :
    (w.extractLsb' start len).toNat = w.toNat / 2 ^ start % 2 ^ len := by
  simp [BitVec.extractLsb'_toNat, Nat.shiftRight_eq_div_pow]

theorem getLsbD_eq_decide {n : Nat} (w : BitVec n) (k : Nat) :
    w.getLsbD k = decide (w.toNat / 2 ^ k % 2 = 1) := by
  rw [BitVec.getLsbD, Nat.testBit_eq_decide_div_mod_eq]

theorem ofNat16_toNat (n : Nat) (h : n < 65536) : (BitVec.ofNat 16 n).toNat = n := by
  rw [BitVec.toNat_ofNat, Nat.mod_eq_of_lt h]

end Sys2Proof.Laws
end

