-- ==== Sys2Proof/Laws/State.lean ====
section
/-! SUPPORT. What each update of the block leaves in each field it does not write, and what it writes where the new
value does not depend on the channels; one lemma a field, so that no proof unfolds an update again
(spec/10_state.md R30). -/

namespace Sys2Proof.Machine

/-! raise -/

@[simp] theorem Block.raise_mstate (c : Cause) (b : Block) : (b.raise c).mstate = b.mstate := rfl
@[simp] theorem Block.raise_fsign (c : Cause) (b : Block) : (b.raise c).fsign = b.fsign := rfl
@[simp] theorem Block.raise_fexp (c : Cause) (b : Block) : (b.raise c).fexp = b.fexp := rfl
@[simp] theorem Block.raise_mu (c : Cause) (b : Block) : (b.raise c).mu = b.mu := rfl
@[simp] theorem Block.raise_work (c : Cause) (b : Block) : (b.raise c).work = b.work := rfl
@[simp] theorem Block.raise_lacc (c : Cause) (b : Block) : (b.raise c).lacc = b.lacc := rfl
@[simp] theorem Block.raise_cnt (c : Cause) (b : Block) : (b.raise c).cnt = b.cnt := rfl
@[simp] theorem Block.raise_prec (c : Cause) (b : Block) : (b.raise c).prec = b.prec := rfl
@[simp] theorem Block.raise_wsign (c : Cause) (b : Block) : (b.raise c).wsign = b.wsign := rfl
@[simp] theorem Block.raise_acc (c : Cause) (b : Block) : (b.raise c).acc = b.acc := rfl
@[simp] theorem Block.raise_outValid (c : Cause) (b : Block) : (b.raise c).outValid = b.outValid := rfl
@[simp] theorem Block.raise_err (c : Cause) (b : Block) : (b.raise c).err = b.err ||| c.mask := rfl
@[simp] theorem Block.raise_opq (c : Cause) (b : Block) : (b.raise c).opq = b.opq := rfl
@[simp] theorem Block.raise_wbq (c : Cause) (b : Block) : (b.raise c).wbq = b.wbq := rfl
@[simp] theorem Block.raise_resq (c : Cause) (b : Block) : (b.raise c).resq = b.resq := rfl

/-! pushOp -/

@[simp] theorem Block.pushOp_mstate (w : OpByte) (b : Block) : (b.pushOp w).mstate = b.mstate := rfl
@[simp] theorem Block.pushOp_fsign (w : OpByte) (b : Block) : (b.pushOp w).fsign = b.fsign := rfl
@[simp] theorem Block.pushOp_fexp (w : OpByte) (b : Block) : (b.pushOp w).fexp = b.fexp := rfl
@[simp] theorem Block.pushOp_mu (w : OpByte) (b : Block) : (b.pushOp w).mu = b.mu := rfl
@[simp] theorem Block.pushOp_work (w : OpByte) (b : Block) : (b.pushOp w).work = b.work := rfl
@[simp] theorem Block.pushOp_lacc (w : OpByte) (b : Block) : (b.pushOp w).lacc = b.lacc := rfl
@[simp] theorem Block.pushOp_cnt (w : OpByte) (b : Block) : (b.pushOp w).cnt = b.cnt := rfl
@[simp] theorem Block.pushOp_prec (w : OpByte) (b : Block) : (b.pushOp w).prec = b.prec := rfl
@[simp] theorem Block.pushOp_wsign (w : OpByte) (b : Block) : (b.pushOp w).wsign = b.wsign := rfl
@[simp] theorem Block.pushOp_acc (w : OpByte) (b : Block) : (b.pushOp w).acc = b.acc := rfl
@[simp] theorem Block.pushOp_outValid (w : OpByte) (b : Block) : (b.pushOp w).outValid = b.outValid := rfl
@[simp] theorem Block.pushOp_err (w : OpByte) (b : Block) : (b.pushOp w).err = b.err := rfl
@[simp] theorem Block.pushOp_opq (w : OpByte) (b : Block) : (b.pushOp w).opq = b.opq ++ [w] := rfl
@[simp] theorem Block.pushOp_wbq (w : OpByte) (b : Block) : (b.pushOp w).wbq = b.wbq := rfl
@[simp] theorem Block.pushOp_resq (w : OpByte) (b : Block) : (b.pushOp w).resq = b.resq := rfl

/-! pushWb -/

@[simp] theorem Block.pushWb_mstate (x : Bool) (b : Block) : (b.pushWb x).mstate = b.mstate := rfl
@[simp] theorem Block.pushWb_fsign (x : Bool) (b : Block) : (b.pushWb x).fsign = b.fsign := rfl
@[simp] theorem Block.pushWb_fexp (x : Bool) (b : Block) : (b.pushWb x).fexp = b.fexp := rfl
@[simp] theorem Block.pushWb_mu (x : Bool) (b : Block) : (b.pushWb x).mu = b.mu := rfl
@[simp] theorem Block.pushWb_work (x : Bool) (b : Block) : (b.pushWb x).work = b.work := rfl
@[simp] theorem Block.pushWb_lacc (x : Bool) (b : Block) : (b.pushWb x).lacc = b.lacc := rfl
@[simp] theorem Block.pushWb_cnt (x : Bool) (b : Block) : (b.pushWb x).cnt = b.cnt := rfl
@[simp] theorem Block.pushWb_prec (x : Bool) (b : Block) : (b.pushWb x).prec = b.prec := rfl
@[simp] theorem Block.pushWb_wsign (x : Bool) (b : Block) : (b.pushWb x).wsign = b.wsign := rfl
@[simp] theorem Block.pushWb_acc (x : Bool) (b : Block) : (b.pushWb x).acc = b.acc := rfl
@[simp] theorem Block.pushWb_outValid (x : Bool) (b : Block) : (b.pushWb x).outValid = b.outValid := rfl
@[simp] theorem Block.pushWb_err (x : Bool) (b : Block) : (b.pushWb x).err = b.err := rfl
@[simp] theorem Block.pushWb_opq (x : Bool) (b : Block) : (b.pushWb x).opq = b.opq := rfl
@[simp] theorem Block.pushWb_wbq (x : Bool) (b : Block) : (b.pushWb x).wbq = b.wbq ++ [x] := rfl
@[simp] theorem Block.pushWb_resq (x : Bool) (b : Block) : (b.pushWb x).resq = b.resq := rfl

/-! clearAcc -/

@[simp] theorem Block.clearAcc_mstate (b : Block) : (b.clearAcc).mstate = b.mstate := rfl
@[simp] theorem Block.clearAcc_fsign (b : Block) : (b.clearAcc).fsign = b.fsign := rfl
@[simp] theorem Block.clearAcc_fexp (b : Block) : (b.clearAcc).fexp = b.fexp := rfl
@[simp] theorem Block.clearAcc_mu (b : Block) : (b.clearAcc).mu = b.mu := rfl
@[simp] theorem Block.clearAcc_work (b : Block) : (b.clearAcc).work = b.work := rfl
@[simp] theorem Block.clearAcc_lacc (b : Block) : (b.clearAcc).lacc = b.lacc := rfl
@[simp] theorem Block.clearAcc_cnt (b : Block) : (b.clearAcc).cnt = b.cnt := rfl
@[simp] theorem Block.clearAcc_prec (b : Block) : (b.clearAcc).prec = b.prec := rfl
@[simp] theorem Block.clearAcc_wsign (b : Block) : (b.clearAcc).wsign = b.wsign := rfl
@[simp] theorem Block.clearAcc_acc (b : Block) : (b.clearAcc).acc = 0 := rfl
@[simp] theorem Block.clearAcc_outValid (b : Block) : (b.clearAcc).outValid = b.outValid := rfl
@[simp] theorem Block.clearAcc_err (b : Block) : (b.clearAcc).err = b.err := rfl
@[simp] theorem Block.clearAcc_opq (b : Block) : (b.clearAcc).opq = b.opq := rfl
@[simp] theorem Block.clearAcc_wbq (b : Block) : (b.clearAcc).wbq = b.wbq := rfl
@[simp] theorem Block.clearAcc_resq (b : Block) : (b.clearAcc).resq = b.resq := rfl

/-! noResult -/

@[simp] theorem Block.noResult_mstate (b : Block) : (b.noResult).mstate = b.mstate := rfl
@[simp] theorem Block.noResult_fsign (b : Block) : (b.noResult).fsign = b.fsign := rfl
@[simp] theorem Block.noResult_fexp (b : Block) : (b.noResult).fexp = b.fexp := rfl
@[simp] theorem Block.noResult_mu (b : Block) : (b.noResult).mu = b.mu := rfl
@[simp] theorem Block.noResult_work (b : Block) : (b.noResult).work = b.work := rfl
@[simp] theorem Block.noResult_lacc (b : Block) : (b.noResult).lacc = b.lacc := rfl
@[simp] theorem Block.noResult_cnt (b : Block) : (b.noResult).cnt = b.cnt := rfl
@[simp] theorem Block.noResult_prec (b : Block) : (b.noResult).prec = b.prec := rfl
@[simp] theorem Block.noResult_wsign (b : Block) : (b.noResult).wsign = b.wsign := rfl
@[simp] theorem Block.noResult_acc (b : Block) : (b.noResult).acc = b.acc := rfl
@[simp] theorem Block.noResult_outValid (b : Block) : (b.noResult).outValid = false := rfl
@[simp] theorem Block.noResult_err (b : Block) : (b.noResult).err = b.err := rfl
@[simp] theorem Block.noResult_opq (b : Block) : (b.noResult).opq = b.opq := rfl
@[simp] theorem Block.noResult_wbq (b : Block) : (b.noResult).wbq = b.wbq := rfl
@[simp] theorem Block.noResult_resq (b : Block) : (b.noResult).resq = b.resq := rfl

/-! emit -/

@[simp] theorem Block.emit_mstate (b : Block) : (b.emit).mstate = .idle := rfl
@[simp] theorem Block.emit_fsign (b : Block) : (b.emit).fsign = b.fsign := rfl
@[simp] theorem Block.emit_fexp (b : Block) : (b.emit).fexp = b.fexp := rfl
@[simp] theorem Block.emit_mu (b : Block) : (b.emit).mu = b.mu := rfl
@[simp] theorem Block.emit_work (b : Block) : (b.emit).work = b.work := rfl
@[simp] theorem Block.emit_lacc (b : Block) : (b.emit).lacc = b.lacc := rfl
@[simp] theorem Block.emit_cnt (b : Block) : (b.emit).cnt = b.cnt := rfl
@[simp] theorem Block.emit_prec (b : Block) : (b.emit).prec = b.prec := rfl
@[simp] theorem Block.emit_wsign (b : Block) : (b.emit).wsign = b.wsign := rfl
@[simp] theorem Block.emit_acc (b : Block) : (b.emit).acc = b.acc := rfl
@[simp] theorem Block.emit_outValid (b : Block) : (b.emit).outValid = b.outValid := rfl
@[simp] theorem Block.emit_err (b : Block) : (b.emit).err = b.err := rfl
@[simp] theorem Block.emit_opq (b : Block) : (b.emit).opq = b.opq := rfl
@[simp] theorem Block.emit_wbq (b : Block) : (b.emit).wbq = b.wbq := rfl
@[simp] theorem Block.emit_resq (b : Block) : (b.emit).resq = b.resq ++ [b.record] := rfl

/-! accept: what it does not write -/

@[simp] theorem Block.accept_wsign (precision : BitVec 4) (b : Block) : (b.accept precision).wsign = b.wsign := by
  unfold Block.accept; split <;> rfl
@[simp] theorem Block.accept_acc (precision : BitVec 4) (b : Block) : (b.accept precision).acc = b.acc := by
  unfold Block.accept; split <;> rfl
@[simp] theorem Block.accept_outValid (precision : BitVec 4) (b : Block) : (b.accept precision).outValid = b.outValid := by
  unfold Block.accept; split <;> rfl
@[simp] theorem Block.accept_err (precision : BitVec 4) (b : Block) : (b.accept precision).err = b.err := by
  unfold Block.accept; split <;> rfl
@[simp] theorem Block.accept_wbq (precision : BitVec 4) (b : Block) : (b.accept precision).wbq = b.wbq := by
  unfold Block.accept; split <;> rfl
@[simp] theorem Block.accept_resq (precision : BitVec 4) (b : Block) : (b.accept precision).resq = b.resq := by
  unfold Block.accept; split <;> rfl

/-! magnitudeBit: what it does not write -/

@[simp] theorem Block.magnitudeBit_mstate (b : Block) : (b.magnitudeBit).mstate = b.mstate := by
  unfold Block.magnitudeBit; split <;> rfl
@[simp] theorem Block.magnitudeBit_fsign (b : Block) : (b.magnitudeBit).fsign = b.fsign := by
  unfold Block.magnitudeBit; split <;> rfl
@[simp] theorem Block.magnitudeBit_fexp (b : Block) : (b.magnitudeBit).fexp = b.fexp := by
  unfold Block.magnitudeBit; split <;> rfl
@[simp] theorem Block.magnitudeBit_mu (b : Block) : (b.magnitudeBit).mu = b.mu := by
  unfold Block.magnitudeBit; split <;> rfl
@[simp] theorem Block.magnitudeBit_prec (b : Block) : (b.magnitudeBit).prec = b.prec := by
  unfold Block.magnitudeBit; split <;> rfl
@[simp] theorem Block.magnitudeBit_wsign (b : Block) : (b.magnitudeBit).wsign = b.wsign := by
  unfold Block.magnitudeBit; split <;> rfl
@[simp] theorem Block.magnitudeBit_acc (b : Block) : (b.magnitudeBit).acc = b.acc := by
  unfold Block.magnitudeBit; split <;> rfl
@[simp] theorem Block.magnitudeBit_outValid (b : Block) : (b.magnitudeBit).outValid = b.outValid := by
  unfold Block.magnitudeBit; split <;> rfl
@[simp] theorem Block.magnitudeBit_err (b : Block) : (b.magnitudeBit).err = b.err := by
  unfold Block.magnitudeBit; split <;> rfl
@[simp] theorem Block.magnitudeBit_opq (b : Block) : (b.magnitudeBit).opq = b.opq := by
  unfold Block.magnitudeBit; split <;> rfl
@[simp] theorem Block.magnitudeBit_resq (b : Block) : (b.magnitudeBit).resq = b.resq := by
  unfold Block.magnitudeBit; split <;> rfl

/-! signBit: what it does not write -/

@[simp] theorem Block.signBit_fsign (b : Block) : (b.signBit).fsign = b.fsign := by
  unfold Block.signBit; split <;> rfl
@[simp] theorem Block.signBit_fexp (b : Block) : (b.signBit).fexp = b.fexp := by
  unfold Block.signBit; split <;> rfl
@[simp] theorem Block.signBit_mu (b : Block) : (b.signBit).mu = b.mu := by
  unfold Block.signBit; split <;> rfl
@[simp] theorem Block.signBit_work (b : Block) : (b.signBit).work = b.work := by
  unfold Block.signBit; split <;> rfl
@[simp] theorem Block.signBit_lacc (b : Block) : (b.signBit).lacc = b.lacc := by
  unfold Block.signBit; split <;> rfl
@[simp] theorem Block.signBit_prec (b : Block) : (b.signBit).prec = b.prec := by
  unfold Block.signBit; split <;> rfl
@[simp] theorem Block.signBit_acc (b : Block) : (b.signBit).acc = b.acc := by
  unfold Block.signBit; split <;> rfl
@[simp] theorem Block.signBit_outValid (b : Block) : (b.signBit).outValid = b.outValid := by
  unfold Block.signBit; split <;> rfl
@[simp] theorem Block.signBit_err (b : Block) : (b.signBit).err = b.err := by
  unfold Block.signBit; split <;> rfl
@[simp] theorem Block.signBit_opq (b : Block) : (b.signBit).opq = b.opq := by
  unfold Block.signBit; split <;> rfl
@[simp] theorem Block.signBit_resq (b : Block) : (b.signBit).resq = b.resq := by
  unfold Block.signBit; split <;> rfl

/-! accumulate -/

@[simp] theorem Block.accumulate_mstate (p : Params) (v3 : Int) (b : Block) : (b.accumulate p v3).mstate = b.mstate := by
  simp only [Block.accumulate]; split <;> rfl
@[simp] theorem Block.accumulate_fsign (p : Params) (v3 : Int) (b : Block) : (b.accumulate p v3).fsign = b.fsign := by
  simp only [Block.accumulate]; split <;> rfl
@[simp] theorem Block.accumulate_fexp (p : Params) (v3 : Int) (b : Block) : (b.accumulate p v3).fexp = b.fexp := by
  simp only [Block.accumulate]; split <;> rfl
@[simp] theorem Block.accumulate_mu (p : Params) (v3 : Int) (b : Block) : (b.accumulate p v3).mu = b.mu := by
  simp only [Block.accumulate]; split <;> rfl
@[simp] theorem Block.accumulate_work (p : Params) (v3 : Int) (b : Block) : (b.accumulate p v3).work = b.work := by
  simp only [Block.accumulate]; split <;> rfl
@[simp] theorem Block.accumulate_lacc (p : Params) (v3 : Int) (b : Block) : (b.accumulate p v3).lacc = b.lacc := by
  simp only [Block.accumulate]; split <;> rfl
@[simp] theorem Block.accumulate_cnt (p : Params) (v3 : Int) (b : Block) : (b.accumulate p v3).cnt = b.cnt := by
  simp only [Block.accumulate]; split <;> rfl
@[simp] theorem Block.accumulate_prec (p : Params) (v3 : Int) (b : Block) : (b.accumulate p v3).prec = b.prec := by
  simp only [Block.accumulate]; split <;> rfl
@[simp] theorem Block.accumulate_wsign (p : Params) (v3 : Int) (b : Block) : (b.accumulate p v3).wsign = b.wsign := by
  simp only [Block.accumulate]; split <;> rfl
@[simp] theorem Block.accumulate_acc (p : Params) (v3 : Int) (b : Block) : (b.accumulate p v3).acc = wrap p.accW (b.acc + v3) := by
  simp only [Block.accumulate]; split <;> rfl
@[simp] theorem Block.accumulate_outValid (p : Params) (v3 : Int) (b : Block) : (b.accumulate p v3).outValid = true := by
  simp only [Block.accumulate]; split <;> rfl
@[simp] theorem Block.accumulate_opq (p : Params) (v3 : Int) (b : Block) : (b.accumulate p v3).opq = b.opq := by
  simp only [Block.accumulate]; split <;> rfl
@[simp] theorem Block.accumulate_wbq (p : Params) (v3 : Int) (b : Block) : (b.accumulate p v3).wbq = b.wbq := by
  simp only [Block.accumulate]; split <;> rfl
@[simp] theorem Block.accumulate_resq (p : Params) (v3 : Int) (b : Block) : (b.accumulate p v3).resq = b.resq := by
  simp only [Block.accumulate]; split <;> rfl
@[simp] theorem Block.accumulate_err (p : Params) (v3 : Int) (b : Block) :
    (b.accumulate p v3).err =
      if p.ovfCheck && overflows p.accW (b.acc + v3) then b.err ||| 0b10#2 else b.err := by
  simp only [Block.accumulate]; split <;> rfl

/-! feed -/

/-- The pushes of a host turn append to the two input channels and change nothing else. -/
theorem Block.feed_eq (d : HostTurn) (b : Block) :
    b.feed d = { b with opq := b.opq ++ d.ops, wbq := b.wbq ++ d.bits } := by
  have ho : ∀ (l : List OpByte) (c : Block),
      l.foldl (fun c w => c.pushOp w) c = { c with opq := c.opq ++ l } := by
    intro l
    induction l with
    | nil => intro c; simp
    | cons w l ih => intro c; rw [List.foldl_cons, ih]; simp [Block.pushOp]
  have hb : ∀ (l : List Bool) (c : Block),
      l.foldl (fun c x => c.pushWb x) c = { c with wbq := c.wbq ++ l } := by
    intro l
    induction l with
    | nil => intro c; simp
    | cons x l ih => intro c; rw [List.foldl_cons, ih]; simp [Block.pushWb]
  simp only [Block.feed, ho, hb]

@[simp] theorem Block.feed_mstate (d : HostTurn) (b : Block) : (b.feed d).mstate = b.mstate := by rw [Block.feed_eq]
@[simp] theorem Block.feed_fsign (d : HostTurn) (b : Block) : (b.feed d).fsign = b.fsign := by rw [Block.feed_eq]
@[simp] theorem Block.feed_fexp (d : HostTurn) (b : Block) : (b.feed d).fexp = b.fexp := by rw [Block.feed_eq]
@[simp] theorem Block.feed_mu (d : HostTurn) (b : Block) : (b.feed d).mu = b.mu := by rw [Block.feed_eq]
@[simp] theorem Block.feed_work (d : HostTurn) (b : Block) : (b.feed d).work = b.work := by rw [Block.feed_eq]
@[simp] theorem Block.feed_lacc (d : HostTurn) (b : Block) : (b.feed d).lacc = b.lacc := by rw [Block.feed_eq]
@[simp] theorem Block.feed_cnt (d : HostTurn) (b : Block) : (b.feed d).cnt = b.cnt := by rw [Block.feed_eq]
@[simp] theorem Block.feed_prec (d : HostTurn) (b : Block) : (b.feed d).prec = b.prec := by rw [Block.feed_eq]
@[simp] theorem Block.feed_wsign (d : HostTurn) (b : Block) : (b.feed d).wsign = b.wsign := by rw [Block.feed_eq]
@[simp] theorem Block.feed_acc (d : HostTurn) (b : Block) : (b.feed d).acc = b.acc := by rw [Block.feed_eq]
@[simp] theorem Block.feed_outValid (d : HostTurn) (b : Block) : (b.feed d).outValid = b.outValid := by rw [Block.feed_eq]
@[simp] theorem Block.feed_err (d : HostTurn) (b : Block) : (b.feed d).err = b.err := by rw [Block.feed_eq]
@[simp] theorem Block.feed_resq (d : HostTurn) (b : Block) : (b.feed d).resq = b.resq := by rw [Block.feed_eq]
@[simp] theorem Block.feed_opq (d : HostTurn) (b : Block) : (b.feed d).opq = b.opq ++ d.ops := by rw [Block.feed_eq]
@[simp] theorem Block.feed_wbq (d : HostTurn) (b : Block) : (b.feed d).wbq = b.wbq ++ d.bits := by rw [Block.feed_eq]

end Sys2Proof.Machine
end

