-- ==== Sys2Proof/Laws/Ops.lean ====
section
/-! SUPPORT. One lemma for each shared operation: what it does when its channel holds an element, and everything a
turn can answer. Proofs cite these and do not unfold the operations. -/

namespace Sys2Proof.Machine

theorem Block.accept_of_cons {b : Block} {w : OpByte} {rest : List OpByte} (precision : BitVec 4)
    (h : b.opq = w :: rest) :
    b.accept precision =
      { b with
        opq := rest
        fsign := (decodeOperand w).sign
        fexp := (decodeOperand w).exponent
        mu := mantissaUnit (decodeOperand w).mantissa
        work := (mantissaUnit (decodeOperand w).mantissa).setWidth 18
        lacc := 0#19
        cnt := 0#4
        prec := precision
        mstate := .compute } := by
  simp only [Block.accept, h]

theorem Block.magnitudeBit_of_cons {b : Block} {x : Bool} {rest : List Bool} (h : b.wbq = x :: rest) :
    b.magnitudeBit =
      { b with
        wbq := rest
        lacc := if x then b.lacc + b.work.setWidth 19 else b.lacc
        work := b.work <<< 1
        cnt := b.cnt + 1#4 } := by
  simp only [Block.magnitudeBit, h]

theorem Block.signBit_of_cons {b : Block} {x : Bool} {rest : List Bool} (h : b.wbq = x :: rest) :
    b.signBit = { b with wbq := rest, wsign := x, cnt := b.cnt + 1#4, mstate := .done } := by
  simp only [Block.signBit, h]

theorem Block.consume_of_cons {b : Block} {r : IResult} {rest : List IResult} (p : Params) (refExp : BitVec 4)
    (h : b.resq = r :: rest) (hp : r.prec ≠ 0#4) :
    b.consume p refExp = some (Block.accumulate p (contribution r refExp) { b with resq := rest }) := by
  simp only [Block.consume, h, if_neg hp]

/-- A.CONSUME gives a block only from a record with a precision, and then the accumulated one. -/
theorem Block.consume_eq_some {p : Params} {refExp : BitVec 4} {b b' : Block} (h : b.consume p refExp = some b') :
    ∃ r rest, b.resq = r :: rest ∧ r.prec ≠ 0#4 ∧
      b' = Block.accumulate p (contribution r refExp) { b with resq := rest } := by
  unfold Block.consume at h
  split at h
  · cases h
  · rename_i r rest hq
    split at h
    · cases h
    · rename_i hp
      exact ⟨r, rest, hq, hp, (Option.some.inj h).symm⟩

/-- Everything a multiplier transition can do when it answers a next state. -/
theorem multTransition_eq_next {sel : Bool} {b : Block} {s t : State} (h : multTransition sel b s = .next t) :
    ∃ more, s.phase = .mult more ∧ sel = true ∧ t = { s with block := b, phase := .accum more } := by
  unfold multTransition at h
  split at h
  · rename_i more hp
    split at h
    · rename_i hs
      exact ⟨more, hp, hs, (Host.Outcome.next.inj h).symm⟩
    · cases h
  · cases h
  · cases h

theorem multTransition_of_mult {sel : Bool} {s : State} {more : Nat} (b : Block) (hp : s.phase = .mult more)
    (hs : sel = true) : multTransition sel b s = .next { s with block := b, phase := .accum more } := by
  simp only [multTransition, hp, hs, if_true]

/-- Everything an accumulator transition can do when it answers a next state. -/
theorem accumTransition_eq_next {sel : Bool} {b : Option Block} {s t : State}
    (h : accumTransition sel b s = .next t) :
    ∃ more b', s.phase = .accum more ∧ sel = true ∧ b = some b' ∧
      t = { s with block := b', phase := Phase.afterStep more } := by
  unfold accumTransition at h
  split at h
  · rename_i more hp
    split at h
    · rename_i hs
      split at h
      · rename_i b'
        exact ⟨more, b', hp, hs, rfl, (Host.Outcome.next.inj h).symm⟩
      · cases h
    · cases h
  · cases h
  · cases h

theorem accumTransition_of_accum {sel : Bool} {s : State} {more : Nat} (b : Block) (hp : s.phase = .accum more)
    (hs : sel = true) :
    accumTransition sel (some b) s = .next { s with block := b, phase := Phase.afterStep more } := by
  simp only [accumTransition, hp, hs, if_true]

/-- A host move answers a next state only between steps, and then its own. -/
theorem hostMove_eq_next {o : Host.Outcome State Fault Refusal} {s t : State} (h : hostMove o s = .next t) :
    s.phase = .host ∧ o = .next t := by
  unfold hostMove at h
  split at h
  · rename_i hp
    exact ⟨hp, h⟩
  · cases h
  · cases h

theorem hostMove_of_host {s : State} (o : Host.Outcome State Fault Refusal) (hp : s.phase = .host) :
    hostMove o s = o := by
  simp only [hostMove, hp]

/-- The fields of A.CONSUME that fit a block are those of its oldest record. -/
theorem Block.headMatches_eq_true {refExp : BitVec 4} {w f n : Bool} {b : Block}
    (h : b.headMatches refExp w f n = true) :
    ∃ r rest, b.resq = r :: rest ∧ w = r.wsign ∧ f = r.fsign ∧
      n = decide (r.exp.toNat < refExp.toNat) := by
  unfold Block.headMatches at h
  split at h
  · cases h
  · rename_i r rest hq
    simp only [Bool.and_eq_true, beq_iff_eq] at h
    exact ⟨r, rest, hq, h.1.1, h.1.2, h.2⟩

end Sys2Proof.Machine
end

