-- ==== Sys2Proof/Laws/PerInstr.lean ====
section
/-! SUPPORT. A property of every instruction as syntax: its word lies in the row of spec/opcode_table.json that
lists it. The masks and matches below are the table's columns. -/

namespace Sys2Proof.Laws

/-- An MSEL word in the row with that mask and match (30 R101). -/
def mselRow (mask value : Msel) (c : CodeWord) : Prop := ∃ w, c = .msel w ∧ w &&& mask = value

/-- An ASEL word in the row with that mask and match (30 R102). -/
def aselRow (mask value : Asel) (c : CodeWord) : Prop := ∃ w, c = .asel w ∧ w &&& mask = value

/-- An HCMD word in the row with that mask and match (30 R103). -/
def hcmdRow (mask value : Hcmd) (c : CodeWord) : Prop := ∃ w, c = .hcmd w ∧ w &&& mask = value

/-- The word lies in the row of the table. -/
def TableRow.Statement (i : Instr) : Prop :=
  match i with
  | .mIdleWaitNoValid => mselRow 0xE0#8 0x00#8 (encode i)
  | .mIdleWaitNoOperand => mselRow 0xF0#8 0x20#8 (encode i)
  | .mIdleReject => mselRow 0xF8#8 0x30#8 (encode i)
  | .mIdleAccept => mselRow 0xF8#8 0x38#8 (encode i)
  | .mComputeStall => mselRow 0xC4#8 0x40#8 (encode i)
  | .mComputeMag => mselRow 0xC6#8 0x44#8 (encode i)
  | .mComputeSign => mselRow 0xC6#8 0x46#8 (encode i)
  | .mDoneEmit => mselRow 0xC1#8 0x80#8 (encode i)
  | .mDoneBlock => mselRow 0xC1#8 0x81#8 (encode i)
  | .mReserved => mselRow 0xC0#8 0xC0#8 (encode i)
  | .aIdle => aselRow 0x8#4 0x0#4 (encode i)
  | .aConsume _ _ _ => aselRow 0x8#4 0x8#4 (encode i)
  | .hReset => hcmdRow 0xFFFF#16 0x0000#16 (encode i)
  | .hAccClear => hcmdRow 0xFFFF#16 0x2000#16 (encode i)
  | .hSetCfg _ _ _ => hcmdRow 0xFE00#16 0x4000#16 (encode i)
  | .hPushOp _ => hcmdRow 0xFF00#16 0x6000#16 (encode i)
  | .hPushWb _ => hcmdRow 0xFFFE#16 0x8000#16 (encode i)
  | .hStep _ => hcmdRow 0xE000#16 0xA000#16 (encode i)
  | .hReserved110 _ => hcmdRow 0xE000#16 0xC000#16 (encode i)
  | .hReserved111 _ => hcmdRow 0xE000#16 0xE000#16 (encode i)

theorem TableRow.mIdleWaitNoValid : TableRow.Statement .mIdleWaitNoValid := ⟨_, rfl, by decide⟩
theorem TableRow.mIdleWaitNoOperand : TableRow.Statement .mIdleWaitNoOperand := ⟨_, rfl, by decide⟩
theorem TableRow.mIdleReject : TableRow.Statement .mIdleReject := ⟨_, rfl, by decide⟩
theorem TableRow.mIdleAccept : TableRow.Statement .mIdleAccept := ⟨_, rfl, by decide⟩
theorem TableRow.mComputeStall : TableRow.Statement .mComputeStall := ⟨_, rfl, by decide⟩
theorem TableRow.mComputeMag : TableRow.Statement .mComputeMag := ⟨_, rfl, by decide⟩
theorem TableRow.mComputeSign : TableRow.Statement .mComputeSign := ⟨_, rfl, by decide⟩
theorem TableRow.mDoneEmit : TableRow.Statement .mDoneEmit := ⟨_, rfl, by decide⟩
theorem TableRow.mDoneBlock : TableRow.Statement .mDoneBlock := ⟨_, rfl, by decide⟩
theorem TableRow.mReserved : TableRow.Statement .mReserved := ⟨_, rfl, by decide⟩
theorem TableRow.aIdle : TableRow.Statement .aIdle := ⟨_, rfl, by decide⟩

theorem TableRow.aConsume (w f n : Bool) : TableRow.Statement (.aConsume w f n) :=
  ⟨_, rfl, by revert w f n; decide⟩

theorem TableRow.hReset : TableRow.Statement .hReset := ⟨_, rfl, by decide⟩
theorem TableRow.hAccClear : TableRow.Statement .hAccClear := ⟨_, rfl, by decide⟩

/-- A command above a 13-bit payload, as the sum it is: the mask of the command takes the command. -/
theorem and_command (cmd : BitVec 3) (n : BitVec 13) :
    BitVec.ofNat 16 (2 ^ 13 * cmd.toNat + n.toNat) &&& 0xE000#16 = BitVec.ofNat 16 (2 ^ 13 * cmd.toNat) := by
  have h : BitVec.ofNat 16 (2 ^ 13 * cmd.toNat + n.toNat) = (cmd ++ n : BitVec (3 + 13)) := by
    apply BitVec.eq_of_toNat_eq
    rw [BitVec.toNat_append, Nat.shiftLeft_eq, Nat.mul_comm cmd.toNat, ← Nat.two_pow_add_eq_or_of_lt n.isLt,
      BitVec.toNat_ofNat, Nat.mod_eq_of_lt (by omega)]
  rw [h]
  show (cmd ++ n) &&& (0b111#3 ++ 0#13) = _
  rw [BitVec.and_append, BitVec.and_zero]
  clear h
  revert cmd
  decide

theorem TableRow.hSetCfg (v : Bool) (p r : BitVec 4) : TableRow.Statement (.hSetCfg v p r) :=
  ⟨_, rfl, by revert v p r; decide⟩

theorem TableRow.hPushOp (b : OpByte) : TableRow.Statement (.hPushOp b) := ⟨_, rfl, by revert b; decide⟩

theorem TableRow.hPushWb (x : Bool) : TableRow.Statement (.hPushWb x) := ⟨_, rfl, by revert x; decide⟩

theorem TableRow.hStep (n : BitVec 13) : TableRow.Statement (.hStep n) :=
  ⟨_, rfl, and_command 0b101#3 n⟩

theorem TableRow.hReserved110 (x : BitVec 13) : TableRow.Statement (.hReserved110 x) :=
  ⟨_, rfl, and_command 0b110#3 x⟩

theorem TableRow.hReserved111 (x : BitVec 13) : TableRow.Statement (.hReserved111 x) :=
  ⟨_, rfl, and_command 0b111#3 x⟩

end Sys2Proof.Laws
end

