-- ==== Sys2Proof/Laws/Step.lean ====
section
/-! SUPPORT. One lemma for each way a step can go: what a state selects, what the two phases of the controller do, and
what each host move leads to. Proofs over steps cite these and unfold neither `step` nor `exec`. -/

namespace Sys2Proof.Machine

/-- The row that a state selects for its multiplier phase: the case tree of 40 R121. -/
theorem decodeMsel_mselWord (p : Params) (i : Inputs) (b : Block) :
    decodeMsel (mselWord p i b) =
      match b.mstate with
      | .idle =>
        if i.valid = false then .mIdleWaitNoValid
        else if b.opq.isEmpty then .mIdleWaitNoOperand
        else if precisionLegal i.precision then .mIdleAccept else .mIdleReject
      | .compute =>
        if b.wbq.isEmpty then .mComputeStall
        else if b.magnitudeNext then .mComputeMag else .mComputeSign
      | .done => if b.resqFull p then .mDoneBlock else .mDoneEmit := by
  have hl : b.mstate = .compute → b.lastNext = !b.magnitudeNext := fun h => by simp [Block.lastNext, h]
  unfold mselWord
  generalize b.mstate = m at *
  generalize i.valid = v
  generalize b.opq.isEmpty = oa
  generalize precisionLegal i.precision = pk
  generalize b.wbq.isEmpty = wa
  generalize b.lastNext = lb at *
  generalize b.magnitudeNext = mn at *
  generalize b.resqFull p = rf
  cases m with
  | idle => clear hl; revert v oa pk wa lb mn rf; decide
  | compute => rw [hl rfl]; clear hl; revert v oa pk wa mn rf; decide
  | done => clear hl; revert v oa pk wa lb mn rf; decide

/-- A step in the multiplier phase is the controller's multiplier phase. -/
theorem step_of_mult {s : State} {more : Nat} (hp : s.phase = .mult more) :
    step s = .next { s with block := multiplierPhase s.params s.inputs s.block, phase := .accum more } := by
  have hs : step s = exec (decodeMsel (mselWord s.params s.inputs s.block)) s := by
    simp only [step, currentWord, hp, decode, advance]
  rw [hs, decodeMsel_mselWord]
  cases hm : s.block.mstate with
  | idle =>
    simp only [multiplierPhase, hm]
    cases hv : s.inputs.valid with
    | false => simp [exec, execMIdleWaitNoValid, multTransition, hp, hm, hv]
    | true =>
      cases hq : s.block.opq.isEmpty with
      | true => simp [exec, execMIdleWaitNoOperand, multTransition, hp, hm, hv, hq]
      | false =>
        cases hl : precisionLegal s.inputs.precision <;>
          simp [exec, execMIdleAccept, execMIdleReject, multTransition, hp, hm, hv, hq, hl]
  | compute =>
    simp only [multiplierPhase, hm]
    cases hq : s.block.wbq.isEmpty with
    | true => simp [exec, execMComputeStall, multTransition, hp, hm, hq]
    | false =>
      cases hl : s.block.magnitudeNext <;>
        simp [exec, execMComputeMag, execMComputeSign, multTransition, hp, hm, hq, hl]
  | done =>
    simp only [multiplierPhase, hm]
    cases hl : s.block.resqFull s.params
    · have : s.block.resq.length < s.params.resqDepth := by simpa [Block.resqFull, chanFull] using hl
      simp [exec, execMDoneEmit, multTransition, hp, hm, hl, this]
    · have : ¬ s.block.resq.length < s.params.resqDepth := by simpa [Block.resqFull, chanFull] using hl
      simp [exec, execMDoneBlock, multTransition, hp, hm, hl, this]

/-- The row that a state selects for its accumulator phase (41 R150). -/
theorem decodeAsel_aselWord (i : Inputs) (b : Block) :
    decodeAsel (aselWord i b) =
      match b.resq with
      | [] => .aIdle
      | r :: _ => .aConsume r.wsign r.fsign (decide (r.exp.toNat < i.refExp.toNat)) := by
  unfold aselWord
  cases b.resq with
  | nil => exact (by decide : decodeAsel 0b0000#4 = .aIdle)
  | cons r rest =>
    simp only
    generalize r.wsign = w
    generalize r.fsign = f
    generalize decide (r.exp.toNat < i.refExp.toNat) = n
    revert w f n; decide

/-- A step in the accumulator phase is the controller's accumulator phase, and the step ends. -/
theorem step_of_accum {s : State} {more : Nat} (hp : s.phase = .accum more) :
    step s =
      match accumulatorPhase s.params s.inputs s.block with
      | some b => .next { s with block := b, phase := Phase.afterStep more }
      | none => .refused .zeroPrecisionRecord := by
  have hs : step s = exec (decodeAsel (aselWord s.inputs s.block)) s := by
    simp only [step, currentWord, hp, decode, advance]
  rw [hs, decodeAsel_aselWord]
  cases hq : s.block.resq with
  | nil => simp [exec, execAIdle, accumTransition, hp, hq, accumulatorPhase]
  | cons r rest =>
    cases hc : s.block.consume s.params s.inputs.refExp <;>
      simp [exec, execAConsume, accumTransition, hp, accumulatorPhase, hq, Block.headMatches, hc]

/-- Everything a step between steps can do when it answers a next state. -/
theorem step_of_host {s t : State} (hp : s.phase = .host) (h : step s = .next t) :
    (s.script = [] ∧ t = s) ∨
    ∃ w rest i, s.script = w :: rest ∧ decode (.hcmd w) = .instr i ∧
      exec i { s with script := rest } = .next t := by
  simp only [step, currentWord, hp, advance] at h
  cases hq : s.script with
  | nil =>
    rw [hq] at h
    exact Or.inl ⟨rfl, (Host.Outcome.next.inj h).symm⟩
  | cons w rest =>
    simp only [hq, List.head?_cons, Option.map_some, List.tail_cons] at h
    cases hd : decode (.hcmd w) with
    | reject r => simp only [hd] at h; cases h
    | instr i =>
      simp only [hd] at h
      exact Or.inr ⟨w, rest, i, rfl, hd, hp ▸ h⟩

/-- What each host move leads to, when it answers a next state. -/
theorem exec_host {s t : State} {i : Instr} (hp : s.phase = .host) (h : exec i s = .next t) :
    (i = .hReset ∧ t = { s with block := Block.reset, configured := false }) ∨
    (i = .hAccClear ∧ t = { s with block := s.block.clearAcc }) ∨
    (∃ v p r, i = .hSetCfg v p r ∧ t = { s with inputs := ⟨v, p, r⟩, configured := true }) ∨
    (∃ w, i = .hPushOp w ∧ s.block.opFull s.params = false ∧ t = { s with block := s.block.pushOp w }) ∨
    (∃ x, i = .hPushWb x ∧ s.block.wbFull s.params = false ∧ t = { s with block := s.block.pushWb x }) ∨
    (∃ n, i = .hStep n ∧ n ≠ 0#13 ∧ s.configured = true ∧ t = { s with phase := .mult (n.toNat - 1) }) := by
  have nm : ∀ {sel b}, multTransition sel b s ≠ .next t := by
    intro sel b hh; obtain ⟨m, hm, _⟩ := multTransition_eq_next hh; rw [hp] at hm; cases hm
  have na : ∀ {sel b}, accumTransition sel b s ≠ .next t := by
    intro sel b hh; obtain ⟨m, _, hm, _⟩ := accumTransition_eq_next hh; rw [hp] at hm; cases hm
  cases i with
  | mReserved => cases h
  | hReserved110 _ => cases h
  | hReserved111 _ => cases h
  | hReset => exact Or.inl ⟨rfl, (Host.Outcome.next.inj (hostMove_eq_next h).2).symm⟩
  | hAccClear => exact Or.inr (Or.inl ⟨rfl, (Host.Outcome.next.inj (hostMove_eq_next h).2).symm⟩)
  | hSetCfg v p r =>
    exact Or.inr (Or.inr (Or.inl ⟨v, p, r, rfl, (Host.Outcome.next.inj (hostMove_eq_next h).2).symm⟩))
  | hPushOp w =>
    have h := (hostMove_eq_next h).2
    split at h
    · cases h
    · rename_i hf
      exact Or.inr (Or.inr (Or.inr (Or.inl ⟨w, rfl, by simpa using hf, (Host.Outcome.next.inj h).symm⟩)))
  | hPushWb x =>
    have h := (hostMove_eq_next h).2
    split at h
    · cases h
    · rename_i hf
      exact Or.inr (Or.inr (Or.inr (Or.inr (Or.inl ⟨x, rfl, by simpa using hf, (Host.Outcome.next.inj h).symm⟩))))
  | hStep n =>
    have h := (hostMove_eq_next h).2
    split at h
    · cases h
    · rename_i hn
      split at h
      · rename_i hc
        exact Or.inr (Or.inr (Or.inr (Or.inr (Or.inr ⟨n, rfl, hn, hc, (Host.Outcome.next.inj h).symm⟩))))
      · cases h
  | mIdleWaitNoValid => exact absurd h nm
  | mIdleWaitNoOperand => exact absurd h nm
  | mIdleReject => exact absurd h nm
  | mIdleAccept => exact absurd h nm
  | mComputeStall => exact absurd h nm
  | mComputeMag => exact absurd h nm
  | mComputeSign => exact absurd h nm
  | mDoneEmit => exact absurd h nm
  | mDoneBlock => exact absurd h nm
  | aIdle => exact (na (sel := s.block.resq.isEmpty) (b := some s.block.noResult) h).elim
  | aConsume _ _ _ => exact (na h).elim

/-- Everything the multiplier phase does to the result channel. -/
theorem multiplierPhase_resq (p : Params) (i : Inputs) (b : Block) :
    (multiplierPhase p i b).resq =
      if b.mstate = .done ∧ b.resq.length < p.resqDepth then b.resq ++ [b.record] else b.resq := by
  unfold multiplierPhase
  cases hm : b.mstate <;> simp only
  · split
    · split <;> simp
    · simp
  · split
    · simp
    · split <;> simp
  · split <;> simp_all

/-- Everything the multiplier phase does to ERR. -/
theorem multiplierPhase_err (p : Params) (i : Inputs) (b : Block) :
    (multiplierPhase p i b).err =
      if b.mstate = .idle ∧ i.valid = true ∧ b.opq ≠ [] ∧ precisionLegal i.precision = false
      then b.err ||| 0b01#2 else b.err := by
  unfold multiplierPhase
  cases hm : b.mstate <;> simp only
  · cases hv : i.valid <;> cases hq : b.opq <;> cases hl : precisionLegal i.precision <;> simp [Cause.mask]
  · split
    · simp
    · split <;> simp
  · split <;> simp

theorem multiplierPhase_acc (p : Params) (i : Inputs) (b : Block) : (multiplierPhase p i b).acc = b.acc := by
  unfold multiplierPhase
  cases hm : b.mstate <;> simp only
  · split
    · split <;> simp
    · simp
  · split
    · simp
    · split <;> simp
  · split <;> simp

/-- Everything the accumulator phase can lead to. -/
theorem accumulatorPhase_eq_some {p : Params} {i : Inputs} {b b' : Block} (h : accumulatorPhase p i b = some b') :
    (b.resq = [] ∧ b' = b.noResult) ∨ ∃ r rest, b.resq = r :: rest ∧ r.prec ≠ 0#4 ∧
      b' = Block.accumulate p (contribution r i.refExp) { b with resq := rest } := by
  unfold accumulatorPhase at h
  split at h
  · rename_i he
    exact Or.inl ⟨by simpa using he, (Option.some.inj h).symm⟩
  · exact Or.inr (Block.consume_eq_some h)

/-! Runs -/

theorem pipelineSteps_add (p : Params) (i : Inputs) (m n : Nat) (b : Block) :
    pipelineSteps p i (m + n) b = (pipelineSteps p i m b).bind (pipelineSteps p i n) := by
  induction m generalizing b with
  | zero => rw [Nat.zero_add]; rfl
  | succ m ih =>
    rw [Nat.add_right_comm]
    simp only [pipelineSteps]
    cases pipelineStep p i b with
    | none => rfl
    | some b' => exact ih b'

theorem run_add (m n : Nat) (s : State) :
    Safety.run (m + n) s =
      match Safety.run m s with
      | .next t => Safety.run n t
      | .fault r => .fault r
      | .refused r => .refused r := by
  induction m generalizing s with
  | zero => rw [Nat.zero_add]; rfl
  | succ m ih =>
    rw [Nat.add_right_comm]
    simp only [Safety.run]
    cases step s with
    | next t => exact ih t
    | fault r => rfl
    | refused r => rfl

/-- One step of COMPUTE that takes a magnitude bit, from an empty result channel. -/
theorem pipelineStep_magnitude {p : Params} {i : Inputs} {b : Block} {x : Bool} {rest : List Bool}
    (hm : b.mstate = .compute) (hq : b.resq = []) (hw : b.wbq = x :: rest) (hc : b.cnt.toNat + 1 < b.prec.toNat) :
    pipelineStep p i b =
      some { b with
        wbq := rest
        lacc := if x then b.lacc + b.work.setWidth 19 else b.lacc
        work := b.work <<< 1
        cnt := b.cnt + 1#4
        outValid := false } := by
  simp [pipelineStep, multiplierPhase, hm, hw, Block.magnitudeNext, hc, Block.magnitudeBit_of_cons hw,
    accumulatorPhase, hq, Block.noResult]

/-- The last step of COMPUTE, from an empty result channel. -/
theorem pipelineStep_sign {p : Params} {i : Inputs} {b : Block} {x : Bool} {rest : List Bool}
    (hm : b.mstate = .compute) (hq : b.resq = []) (hw : b.wbq = x :: rest) (hc : b.cnt.toNat + 1 = b.prec.toNat) :
    pipelineStep p i b =
      some { b with wbq := rest, wsign := x, mstate := .done, cnt := b.cnt + 1#4, outValid := false } := by
  simp [pipelineStep, multiplierPhase, hm, hw, Block.magnitudeNext, hc, Block.signBit_of_cons hw,
    accumulatorPhase, hq, Block.noResult]

/-- The step that accepts an operand, from an empty result channel. -/
theorem pipelineStep_accept {p : Params} {i : Inputs} {b : Block} {w : OpByte} {ops : List OpByte}
    (hm : b.mstate = .idle) (hv : i.valid = true) (hl : precisionLegal i.precision = true) (hq : b.resq = [])
    (ho : b.opq = w :: ops) :
    pipelineStep p i b = some { b.accept i.precision with outValid := false } := by
  simp [pipelineStep, multiplierPhase, hm, hv, hl, ho, accumulatorPhase, hq, Block.noResult]

/-! Runs in which the host has a turn before each step -/

@[simp] theorem drivenSteps_nil (p : Params) (b : Block) : drivenSteps p [] b = some b := rfl

@[simp] theorem drivenSteps_cons (p : Params) (d : HostTurn) (rest : List HostTurn) (b : Block) :
    drivenSteps p (d :: rest) b = (drivenStep p d b).bind (drivenSteps p rest) := rfl

theorem drivenSteps_append (p : Params) (ds es : List HostTurn) (b : Block) :
    drivenSteps p (ds ++ es) b = (drivenSteps p ds b).bind (drivenSteps p es) := by
  induction ds generalizing b with
  | nil => rfl
  | cons d ds ih =>
    simp only [List.cons_append, drivenSteps_cons]
    cases drivenStep p d b with
    | none => rfl
    | some b' => exact ih b'

/-- A host that pushes nothing and holds its inputs only steps: what is said of driven runs is said of H.STEP `n`. -/
theorem drivenSteps_replicate (p : Params) (i : Inputs) (n : Nat) (b : Block) :
    drivenSteps p (List.replicate n { ops := [], bits := [], inputs := i }) b = pipelineSteps p i n b := by
  induction n generalizing b with
  | zero => rfl
  | succ n ih =>
    simp only [List.replicate_succ, drivenSteps_cons, drivenStep, pipelineSteps]
    rw [Block.feed_eq]
    simp only [List.append_nil]
    exact congrArg _ (funext ih)

@[simp] theorem pushedBits_nil : pushedBits [] = [] := rfl

@[simp] theorem pushedBits_cons (d : HostTurn) (ds : List HostTurn) :
    pushedBits (d :: ds) = d.bits ++ pushedBits ds := rfl

@[simp] theorem pushedBits_append (ds es : List HostTurn) :
    pushedBits (ds ++ es) = pushedBits ds ++ pushedBits es := List.flatMap_append

@[simp] theorem pushedOps_nil : pushedOps [] = [] := rfl

@[simp] theorem pushedOps_cons (d : HostTurn) (ds : List HostTurn) : pushedOps (d :: ds) = d.ops ++ pushedOps ds := rfl

@[simp] theorem pushedOps_append (ds es : List HostTurn) :
    pushedOps (ds ++ es) = pushedOps ds ++ pushedOps es := List.flatMap_append

/-- No transition of the multiplier phase reads or writes OUT_VALID. -/
theorem multiplierPhase_noResult (p : Params) (i : Inputs) (b : Block) :
    multiplierPhase p i b.noResult = (multiplierPhase p i b).noResult := by
  have ha : b.noResult.accept i.precision = (b.accept i.precision).noResult := by
    cases hq : b.opq <;> simp only [Block.accept, Block.noResult, hq]
  have hr : b.noResult.raise .invalidPrecision = (b.raise .invalidPrecision).noResult := rfl
  have hg : b.noResult.magnitudeBit = b.magnitudeBit.noResult := by
    cases hq : b.wbq <;> simp only [Block.magnitudeBit, Block.noResult, hq]
  have hs : b.noResult.signBit = b.signBit.noResult := by
    cases hq : b.wbq <;> simp only [Block.signBit, Block.noResult, hq]
  have he : b.noResult.emit = b.emit.noResult := rfl
  have hn : b.noResult.magnitudeNext = b.magnitudeNext := rfl
  unfold multiplierPhase
  rw [ha, hr, hg, hs, he, hn]
  cases hm : b.mstate <;> simp only [Block.noResult_mstate, Block.noResult_opq, Block.noResult_wbq,
    Block.noResult_resq, hm, apply_ite Block.noResult] <;> rfl

theorem accumulatorPhase_noResult (p : Params) (i : Inputs) (b : Block) :
    accumulatorPhase p i b.noResult = accumulatorPhase p i b := rfl

/-- Nothing in the block reads OUT_VALID, and every step writes it (10 R33). -/
theorem pipelineStep_noResult (p : Params) (i : Inputs) (b : Block) :
    pipelineStep p i b.noResult = pipelineStep p i b := by
  rw [pipelineStep, multiplierPhase_noResult, accumulatorPhase_noResult, pipelineStep]
end Sys2Proof.Machine
end

