-- ==== Sys2Proof/Tests/Slice0.lean ====
section
/-! SUPPORT. Tests against spec/95_test_vectors.md and the encodings of 30_encoding.md, and for every obligation that
has hypotheses a witness that meets them together. Expected values are the spec's. -/

namespace Sys2Proof.Tests

open Sys2Proof Sys2Proof.Machine Sys2Proof.Safety

/-! ## Small states -/

/-- The next state of an outcome. -/
def nextOf (o : Host.Outcome State Fault Refusal) : Option State :=
  match o with
  | .next t => some t
  | .fault _ => none
  | .refused _ => none

/-- Why an outcome is refused. -/
def refusalOf (o : Host.Outcome State Fault Refusal) : Option Refusal :=
  match o with
  | .next _ => none
  | .fault _ => none
  | .refused r => some r

/-- The block in its multiplier phase. -/
def atMult (i : Inputs) (b : Block) : State :=
  { State.reset with inputs := i, configured := true, phase := .mult 0, block := b }

/-- The block in its accumulator phase. -/
def atAccum (i : Inputs) (b : Block) : State :=
  { State.reset with inputs := i, configured := true, phase := .accum 0, block := b }

/-- The block between steps with one script line to run. -/
def atHost (b : Block) (line : Hcmd) : State := { State.reset with block := b, script := [line] }

/-- The block after one step. -/
def blockAfter (s : State) : Option Block := (nextOf (step s)).map State.block

/-- MSEL of a state. -/
def mselOf (s : State) : Msel := mselWord s.params s.inputs s.block

/-- The block of V26: the second of four bits comes next. -/
def blockV26 : Block :=
  { Block.reset with mstate := .compute, mu := 8#4, cnt := 1#4, prec := 4#4, work := 16#18, wbq := [true, false, false] }

/-- The block of V29: the last of four bits comes next. -/
def blockV29 : Block :=
  { Block.reset with
    mstate := .compute, mu := 8#4, cnt := 3#4, prec := 4#4, lacc := 56#19, work := 64#18, wbq := [true] }

/-- The block of V31: DONE, the result channel empty. -/
def blockV31 : Block :=
  { Block.reset with
    mstate := .done, fsign := true, fexp := 7#4, mu := 8#4, work := 64#18, lacc := 16#19, cnt := 4#4, prec := 4#4
    opq := [0x30#8] }

/-- The record of V31. -/
def recordV31 : IResult := ⟨16#19, 7#4, true, false, 8#4, 4#4⟩

/-- The record of V41, row `w = -3`, operand 0xB9. -/
def recordV41 : IResult := ⟨45#19, 7#4, true, true, 9#4, 4#4⟩

/-- The record of V32 that waits in the channel. -/
def recordV32 : IResult := ⟨8#19, 7#4, false, false, 8#4, 2#4⟩

/-- The instance of V32, with a result channel of depth 1 that is full. -/
def stateV32 : State :=
  { atMult ⟨true, 3#4, 7#4⟩
      { Block.reset with
        mstate := .done, fexp := 7#4, mu := 8#4, work := 32#18, lacc := 24#19, cnt := 3#4, prec := 3#4
        resq := [recordV32] } with
    params := { Config.defaults with resqDepth := 1 } }

/-! ## Well-formedness: one ill-formed term for each check (30 R103, 40 R130) -/

theorem test_step_zero_is_ill_formed : (Instr.hStep 0#13).wellFormed = false := by decide
theorem test_reserved_state_is_ill_formed : Instr.mReserved.wellFormed = false := by decide
theorem test_reserved110_is_ill_formed : (Instr.hReserved110 5#13).wellFormed = false := by decide
theorem test_reserved111_is_ill_formed : (Instr.hReserved111 0#13).wellFormed = false := by decide
theorem test_step_max_is_well_formed : (Instr.hStep 8191#13).wellFormed = true := by decide
theorem test_phase_row_is_no_script_line : scriptWellFormed true [.aIdle] = false := by decide
theorem test_step_before_cfg_is_ill_formed : scriptWellFormed false [.hStep 1#13] = false := by decide
theorem test_reset_asks_for_a_new_cfg :
    scriptWellFormed false [.hSetCfg true 4#4 7#4, .hReset, .hStep 1#13] = false := by decide
/-- R106: a script that steps before its CFG has no words. -/
theorem test_step_before_cfg_is_not_assembled :
    assembleScript [.plain .hReset, .plain (.hStep 1#13), .plain (.hSetCfg true 4#4 7#4)] = none := by decide
/-- R107: `W` must be in `-2^(p-1) .. 2^(p-1)-1`; at `p = 4` that is -8 to 7, at `p = 1` it is -1 and 0. -/
theorem test_weight_range_of_pseudo_lines :
    (expandLine (some 4#4) (.wbits 7)).isSome = true ∧ (expandLine (some 4#4) (.wbits 8)).isNone = true ∧
    (expandLine (some 4#4) (.mac 0xB8#8 (-8))).isSome = true ∧
    (expandLine (some 4#4) (.mac 0xB8#8 (-9))).isNone = true ∧
    (expandLine (some 1#4) (.wbits (-1))).isSome = true ∧ (expandLine (some 1#4) (.wbits 1)).isNone = true ∧
    (expandLine (some 0#4) (.wbits 0)).isNone = true ∧ (expandLine none (.wbits 0)).isNone = true := by decide
theorem test_default_parameters_are_legal : Config.Legal Config.defaults := by decide
theorem test_capacity_zero_is_not_legal : ¬ Config.Legal { Config.defaults with opqCap := some 0 } := by decide

/-! ## Decoding: words written out from 30 R100 to R103 -/

/-- V20: state 00, v 0. -/
theorem test_decode_mIdleWaitNoValid : decode (.msel 0b00011100#8) = .instr .mIdleWaitNoValid := by decide
/-- V21: state 00, v 1, oa 0. -/
theorem test_decode_mIdleWaitNoOperand : decode (.msel 0b00100100#8) = .instr .mIdleWaitNoOperand := by decide
/-- V22: state 00, v 1, oa 1, pk 0. -/
theorem test_decode_mIdleReject : decode (.msel 0b00110000#8) = .instr .mIdleReject := by decide
/-- V23: state 00, v 1, oa 1, pk 1. -/
theorem test_decode_mIdleAccept : decode (.msel 0b00111100#8) = .instr .mIdleAccept := by decide
/-- V25: state 01, wa 0. -/
theorem test_decode_mComputeStall : decode (.msel 0b01111010#8) = .instr .mComputeStall := by decide
/-- V26: state 01, wa 1, lb 0. -/
theorem test_decode_mComputeMag : decode (.msel 0b01101100#8) = .instr .mComputeMag := by decide
/-- V29: state 01, wa 1, lb 1. -/
theorem test_decode_mComputeSign : decode (.msel 0b01101110#8) = .instr .mComputeSign := by decide
/-- V31: state 10, rf 0. -/
theorem test_decode_mDoneEmit : decode (.msel 0b10111000#8) = .instr .mDoneEmit := by decide
/-- V32: state 10, rf 1. -/
theorem test_decode_mDoneBlock : decode (.msel 0b10101001#8) = .instr .mDoneBlock := by decide
/-- R101: state 11. -/
theorem test_decode_mReserved : decode (.msel 0b11000000#8) = .instr .mReserved := by decide
/-- R102: ra 0, the other bits open. -/
theorem test_decode_aIdle : decode (.asel 0b0101#4) = .instr .aIdle := by decide
/-- V31: ra 1, ws 0, fs 1, sn 0. -/
theorem test_decode_aConsume : decode (.asel 0b1010#4) = .instr (.aConsume false true false) := by decide
/-- V50. -/
theorem test_decode_hReset : decode (.hcmd 0x0000#16) = .instr .hReset := by decide
/-- V50. -/
theorem test_decode_hAccClear : decode (.hcmd 0x2000#16) = .instr .hAccClear := by decide
/-- V50: `CFG valid=0 prec=3 ref=7`. -/
theorem test_decode_hSetCfg : decode (.hcmd 0x4037#16) = .instr (.hSetCfg false 3#4 7#4) := by decide
/-- V50. -/
theorem test_decode_hPushOp : decode (.hcmd 0x60B8#16) = .instr (.hPushOp 0xB8#8) := by decide
/-- V50. -/
theorem test_decode_hPushWb : decode (.hcmd 0x8001#16) = .instr (.hPushWb true) := by decide
/-- V50: `STEP 17`. -/
theorem test_decode_hStep : decode (.hcmd 0xA011#16) = .instr (.hStep 17#13) := by decide
/-- V50, R103. -/
theorem test_decode_hReserved110 : decode (.hcmd 0xC000#16) = .instr (.hReserved110 0#13) := by decide
/-- V50, R103. -/
theorem test_decode_hReserved111 : decode (.hcmd 0xE000#16) = .instr (.hReserved111 0#13) := by decide
/-- V50, the ill-formed words. -/
theorem test_ill_formed_words_are_rejected :
    decode (.hcmd 0xA000#16) = .reject .stepCountZero ∧ decode (.hcmd 0x8002#16) = .reject .payloadNotZero ∧
    decode (.hcmd 0x6100#16) = .reject .payloadNotZero ∧ decode (.hcmd 0x4200#16) = .reject .payloadNotZero ∧
    decode (.hcmd 0x0001#16) = .reject .payloadNotZero := by decide
/-- The script of P1 as words: the pseudo-line `WB 0,1,0,0`. -/
theorem test_assemble_p1 :
    assembleScript [.plain .hReset, .plain (.hSetCfg true 4#4 7#4), .plain (.hPushOp 0xB8#8),
        .wb false [true, false, false], .plain (.hStep 6#13), .plain (.hStep 2#13)] =
      some [0x0000#16, 0x4147#16, 0x60B8#16, 0x8000#16, 0x8001#16, 0x8000#16, 0x8000#16, 0xA006#16, 0xA002#16] := by
  decide
/-- The script of P2 as words: the pseudo-line `MAC`, with a negative weight. -/
theorem test_assemble_p2 :
    assembleScript [.plain .hReset, .plain (.hSetCfg true 4#4 7#4), .mac 0xB8#8 2, .mac 0x30#8 (-1), .mac 0xC0#8 3] =
      some [0x0000#16, 0x4147#16, 0x60B8#16, 0x8000#16, 0x8001#16, 0x8000#16, 0x8000#16, 0xA006#16, 0x6030#16,
        0x8001#16, 0x8001#16, 0x8001#16, 0x8001#16, 0xA006#16, 0x60C0#16, 0x8001#16, 0x8001#16, 0x8000#16,
        0x8000#16, 0xA006#16] := by decide
/-- R107: `p` is that of the most recent CFG. -/
theorem test_pseudo_lines_follow_the_most_recent_cfg :
    (expandScript none [.plain (.hSetCfg true 2#4 7#4), .wbits 1, .plain (.hSetCfg true 3#4 6#4), .wbits 3]).map
      assemble = some [0x4127#16, 0x8001#16, 0x8000#16, 0x4136#16, 0x8001#16, 0x8001#16, 0x8000#16] := by decide

/-! ## Data -/

/-- V10, the rows 0xB8, 0x3D and 0xFF. -/
theorem test_operand_fields :
    decodeOperand 0xB8#8 = ⟨true, 7#4, 0#3⟩ ∧ decodeOperand 0x3D#8 = ⟨false, 7#4, 5#3⟩ ∧
    mantissaUnit (decodeOperand 0xFF#8).mantissa = 15#4 := by decide
/-- V11, the rows `p = 8, w = -100` and `p = 2, w = -2`. -/
theorem test_weight_streams :
    weightBits 8 (-100) = [false, false, true, true, true, false, false, true] ∧
    weightValue [false, false, true, true, true, false, false, true] = -100 ∧
    weightBits 2 (-2) = [false, true] := by decide
/-- V42: the sign before the shift. -/
theorem test_negate_then_shift : contribution ⟨9#19, 7#4, true, false, 9#4, 4#4⟩ 8#4 = -5 := by decide
/-- V44, the last row: no width is lost before the right shift. -/
theorem test_full_width_before_shift : contribution ⟨245745#19, 7#4, true, false, 15#4, 15#4⟩ 15#4 = -960 := by decide
/-- V43, the first row, at 16 bits. -/
theorem test_left_shift_wraps : wrap 16 (contribution ⟨105#19, 15#4, false, false, 15#4, 4#4⟩ 0#4) = -32768 := by decide
/-- 30 R98: the record of V31 packed. -/
theorem test_record_layout : recordV31.pack.toNat = 16 * 16384 + 7 * 1024 + 512 + 8 * 16 + 4 := by decide

/-! ## One step: the multiplier phase -/

/-- V20. -/
theorem test_idle_wait_no_valid :
    let s := atMult ⟨false, 4#4, 7#4⟩ { Block.reset with opq := [0xB8#8], wbq := [false, true] }
    mselOf s = 0x1C#8 ∧ blockAfter s = some s.block := by decide
/-- V21: no error although the precision is 0. -/
theorem test_idle_wait_no_operand :
    let s := atMult ⟨true, 0#4, 7#4⟩ { Block.reset with wbq := [true] }
    mselOf s = 0x24#8 ∧ blockAfter s = some s.block := by decide
/-- V22. -/
theorem test_idle_reject :
    let s := atMult ⟨true, 0#4, 7#4⟩ { Block.reset with opq := [0x38#8] }
    mselOf s = 0x30#8 ∧ blockAfter s = some { s.block with err := 0b01#2 } := by decide
/-- V23: `wsign` and the weight bits stay. -/
theorem test_idle_accept :
    let s := atMult ⟨true, 4#4, 7#4⟩
      { Block.reset with opq := [0xB8#8, 0x30#8], wbq := [false, true, false, false], wsign := true }
    mselOf s = 0x3C#8 ∧
    blockAfter s = some { s.block with
      opq := [0x30#8], fsign := true, fexp := 7#4, mu := 8#4, work := 8#18, prec := 4#4, mstate := .compute } := by
  decide
/-- V24: 0x7F is an ordinary number. -/
theorem test_idle_accept_top_pattern :
    (blockAfter (atMult ⟨true, 15#4, 0#4⟩ { Block.reset with opq := [0x7F#8] })).map
      (fun b => (b.fsign, b.fexp, b.mu, b.work, b.prec, b.err)) =
      some (false, 15#4, 15#4, 15#18, 15#4, 0b00#2) := by decide
/-- V25. -/
theorem test_compute_stall :
    let s := atMult ⟨true, 3#4, 7#4⟩
      { Block.reset with mstate := .compute, cnt := 2#4, prec := 3#4, lacc := 30#19, work := 40#18, opq := [0x38#8] }
    mselOf s = 0x7A#8 ∧ blockAfter s = some s.block := by decide
/-- V26. -/
theorem test_compute_mag_one :
    let s := atMult ⟨true, 4#4, 7#4⟩ blockV26
    mselOf s = 0x6C#8 ∧
    blockAfter s = some { s.block with lacc := 16#19, work := 32#18, cnt := 2#4, wbq := [false, false] } := by decide
/-- V28: the top of the range fits the widths. -/
theorem test_compute_mag_top :
    (blockAfter (atMult ⟨true, 15#4, 7#4⟩
      { Block.reset with
        mstate := .compute, mu := 15#4, prec := 15#4, cnt := 13#4, work := 122880#18, lacc := 122865#19
        wbq := [true, false] })).map (fun b => (b.lacc.toInt, b.work.toNat, b.cnt)) =
      some (245745, 245760, 14#4) := by decide
/-- V29: `work` is not doubled. -/
theorem test_compute_sign :
    let s := atMult ⟨true, 4#4, 7#4⟩ blockV29
    mselOf s = 0x6E#8 ∧
    blockAfter s = some { s.block with wsign := true, cnt := 4#4, mstate := .done, wbq := [] } := by decide
/-- V30: precision 1 has no magnitude bit. -/
theorem test_compute_sign_precision_one :
    (blockAfter (atMult ⟨true, 1#4, 7#4⟩
      { Block.reset with mstate := .compute, prec := 1#4, work := 13#18, wbq := [true, false] })).map
      (fun b => (b.wsign, b.cnt, b.mstate, b.wbq, b.lacc)) =
      some (true, 1#4, .done, [false], 0#19) := by decide
/-- V31, the multiplier phase. -/
theorem test_done_emit :
    let s := atMult ⟨true, 4#4, 7#4⟩ blockV31
    mselOf s = 0xB8#8 ∧ blockAfter s = some { s.block with resq := [recordV31], mstate := .idle } := by decide
/-- V32, the multiplier phase of step 1. -/
theorem test_done_block : mselOf stateV32 = 0xA9#8 ∧ blockAfter stateV32 = some stateV32.block := by decide
/-- 40 R130. -/
theorem test_reserved_state_is_refused : refusalOf (exec .mReserved State.reset) = some .reservedState := by decide

/-! ## One step: the accumulator phase -/

/-- V40. -/
theorem test_a_idle :
    let s := atAccum ⟨true, 4#4, 7#4⟩ { Block.reset with acc := -16, outValid := true }
    blockAfter s = some { s.block with outValid := false } := by decide
/-- V41, row `w = -3`, operand 0xB9, `ref_exp = 8`. -/
theorem test_a_consume_signs_and_rounding :
    let s := atAccum ⟨true, 4#4, 8#4⟩ { Block.reset with resq := [recordV41] }
    aselWord s.inputs s.block = 0xF#4 ∧
    blockAfter s = some { s.block with resq := [], acc := 13, outValid := true } := by decide
/-- V46: the wrap at the add is flagged under OVF_CHECK. -/
theorem test_a_consume_wraps_and_flags :
    let s := { atAccum ⟨true, 4#4, 7#4⟩
      { Block.reset with acc := 32767, resq := [⟨1#19, 7#4, false, false, 8#4, 4#4⟩] } with
      params := { Config.defaults with ovfCheck := true } }
    (blockAfter s).map (fun b => (b.acc, b.err)) = some (-32768, 0b10#2) := by decide
/-- V46: the test is on the exact sum. -/
theorem test_overflow_is_tested_on_the_exact_sum :
    overflows 16 (-32768 + 40000) = false ∧ wrap 16 (-32768 + 40000) = 7232 ∧
    overflows 16 (-32768 + 65541) = true ∧ wrap 16 (-32768 + 65541) = -32763 := by decide

/-! ## One step: the host moves -/

/-- V52. -/
theorem test_h_reset :
    blockAfter (atHost { blockV29 with opq := [0x30#8], acc := -16, err := 0b01#2 } 0x0000#16) = some Block.reset := by
  decide
/-- V51: the operation in COMPUTE is not touched. -/
theorem test_h_acc_clear :
    blockAfter (atHost { blockV29 with acc := -16 } 0x2000#16) = some blockV29 := by decide
/-- V50, R175. -/
theorem test_h_set_cfg :
    (nextOf (step (atHost blockV26 0x4147#16))).map (fun t => (t.inputs, t.configured, t.block)) =
      some (⟨true, 4#4, 7#4⟩, true, blockV26) := by decide
/-- 42 R176: the new element is the last. -/
theorem test_h_push_op :
    blockAfter (atHost blockV31 0x60B8#16) = some { blockV31 with opq := [0x30#8, 0xB8#8] } := by decide
/-- 42 R177: the new element is the last. -/
theorem test_h_push_wb :
    blockAfter (atHost blockV29 0x8000#16) = some { blockV29 with wbq := [true, false] } := by decide
/-- 42 R178: six steps, five of them after the first. -/
theorem test_h_step :
    (nextOf (step { atHost Block.reset 0xA006#16 with configured := true })).map (fun t => (t.phase, t.block)) =
      some (.mult 5, Block.reset) := by decide
/-- 30 R106: no step before a CFG. -/
theorem test_h_step_before_cfg : refusalOf (step (atHost Block.reset 0xA006#16)) = some .inputsNotDriven := by decide
/-- 30 R103. -/
theorem test_h_reserved110 : refusalOf (step (atHost Block.reset 0xC000#16)) = some .reservedCommand := by decide
/-- 30 R103. -/
theorem test_h_reserved111 : refusalOf (step (atHost Block.reset 0xE123#16)) = some .reservedCommand := by decide
/-- 30 R103. -/
theorem test_ill_formed_word_is_refused :
    refusalOf (step (atHost Block.reset 0xA000#16)) = some (.illFormedMove .stepCountZero) := by decide
/-- 60 R215: with no host move left nothing happens. -/
theorem test_idle_host : nextOf (step State.reset) = some State.reset := by decide
/-- 42 R181: in one port cycle the clear comes before the consumption. -/
theorem test_port_clear_before_consumption :
    (portCycle Config.defaults ⟨false, true, false, 0#8, false, false, ⟨true, 4#4, 7#4⟩⟩ { blockV31 with acc := 5 }).map
      Block.acc = some (-16) := by decide

/-! ## Placing a word -/

/-- Every MSEL word of a row with a state, placed after reset, is the one the state then shows. -/
theorem test_placed_msel_is_shown :
    ∀ w : Msel, w.extractLsb' 6 2 ≠ 0b11#2 → mselOf (State.reset.withFetchWord 8 w.toNat) = w := by decide
/-- A placed ASEL word with a record, too. -/
theorem test_placed_asel_is_shown :
    ∀ w : Asel, w.getLsbD 3 = true →
      aselWord (State.reset.withFetchWord 4 w.toNat).inputs (State.reset.withFetchWord 4 w.toNat).block = w := by decide

/-! ## Witnesses: states and operands that meet the hypotheses of the obligation named -/

theorem blockV26_inv : BlockInv Config.defaults blockV26 :=
  ⟨by decide, by decide, by decide, by decide, by decide, by decide⟩

theorem stateV32_block_inv : BlockInv stateV32.params stateV32.block :=
  ⟨by decide, by decide, by decide, by decide, by decide, by decide⟩

/-- A state in COMPUTE, inside a step. -/
def stateV26 : State := atMult ⟨true, 4#4, 7#4⟩ blockV26

/-- The invariant holds inside an operation, not only after reset. -/
theorem stateV26_inv : Inv stateV26 :=
  ⟨by decide, blockV26_inv, ⟨by decide, by decide, by decide⟩, rfl⟩

/-- The block of V26 between steps, with input channels of capacity 1 and 3. -/
def stateBounded : State :=
  { atHost blockV26 0x0000#16 with params := { Config.defaults with opqCap := some 1, wbqCap := some 3 } }

/-- A record of `w = -3`, operand 0x38: a right shift by 1 drops only a zero. -/
def recordEven : IResult := ⟨40#19, 7#4, false, true, 8#4, 4#4⟩

theorem witness_DecodeOfEncodeIsTheInstruction :
    (Instr.aConsume true true true).wellFormed = true ∧ (Instr.hStep 8191#13).wellFormed = true ∧
    (Instr.hSetCfg true 15#4 15#4).wellFormed = true := by decide

theorem witness_EncodeOfADecodedScriptWordIsTheWord :
    decode (.hcmd 0xBFFF#16) = .instr (.hStep 8191#13) ∧
    decode (.hcmd 0xFFFF#16) = .instr (.hReserved111 8191#13) := by decide

theorem witness_SelectorWordsHoldTheirBits :
    (BlockInv Config.defaults blockV26 ∧ blockV26.resq.length ≤ Config.defaults.resqDepth) ∧
    BlockInv stateV32.params stateV32.block ∧ stateV32.block.resq.length ≤ stateV32.params.resqDepth ∧
    stateV32.block.resq = recordV32 :: [] :=
  ⟨⟨blockV26_inv, by decide⟩, stateV32_block_inv, by decide, rfl⟩

/-- The least and the greatest precision, each at both ends of its range and one beyond. -/
theorem witness_ScriptWordsByNumber :
    ((1#13 : BitVec 13) ≠ 0#13 ∧ (8191#13 : BitVec 13) ≠ 0#13) ∧
    (∀ p ∈ [1#4, 15#4], 1 ≤ p.toNat ∧ (-2 ^ (p.toNat - 1) : Int) ≤ -2 ^ (p.toNat - 1) ∧
      (2 ^ (p.toNat - 1) - 1 : Int) ≤ 2 ^ (p.toNat - 1) - 1) ∧
    (-2 : Int) < -2 ^ ((1#4).toNat - 1) ∧ (2 ^ ((15#4).toNat - 1) - 1 : Int) < 16384 ∧ (0#4).toNat = 0 := by decide

/-- The words just inside every rejected range. -/
theorem witness_WordsWithUnlistedBitsAndStepZeroAreRejected_words :
    decode (.hcmd 0x1FFF#16) = .reject .payloadNotZero ∧ decode (.hcmd 0x2001#16) = .reject .payloadNotZero ∧
    decode (.hcmd 0x3FFF#16) = .reject .payloadNotZero ∧ decode (.hcmd 0x5FFF#16) = .reject .payloadNotZero ∧
    decode (.hcmd 0x7FFF#16) = .reject .payloadNotZero ∧ decode (.hcmd 0x9FFF#16) = .reject .payloadNotZero := by decide

/-- The words just outside the rejected ranges. -/
theorem witness_WordsWithUnlistedBitsAndStepZeroAreRejected_neighbours :
    decode (.hcmd 0x41FF#16) = .instr (.hSetCfg true 15#4 15#4) ∧
    decode (.hcmd 0x60FF#16) = .instr (.hPushOp 0xFF#8) ∧ decode (.hcmd 0x8001#16) = .instr (.hPushWb true) ∧
    decode (.hcmd 0xA001#16) = .instr (.hStep 1#13) := by decide

theorem witness_WordsWithUnlistedBitsAndStepZeroAreRejected_state :
    let s := atHost blockV26 0x6100#16
    s.phase = .host ∧ s.script.head? = some 0x6100#16 ∧ decode (.hcmd 0x6100#16) = .reject .payloadNotZero := by decide

theorem witness_ReservedCommandsAreRefused :
    (0xC000 ≤ (0xC000#16).toNat ∧ (0xC000#16).toNat < 0xE000) ∧ (0xDFFF#16).toNat < 0xE000 ∧
    0xE000 ≤ (0xE000#16).toNat ∧ 0xE000 ≤ (0xFFFF#16).toNat := by decide

theorem witness_WeightStreamsAreTwosComplement :
    ((-2 ^ 3 : Int) ≤ -8 ∧ (-8 : Int) ≤ 2 ^ 3 - 1) ∧ (-2 ^ 3 : Int) ≤ 7 ∧ (7 : Int) ≤ 2 ^ 3 - 1 ∧
    (-2 ^ 0 : Int) ≤ -1 ∧ (0 : Int) ≤ 2 ^ 0 - 1 := by decide

theorem witness_WrapIsTheOneCongruentValueInRange :
    1 ≤ 4 ∧ InRange 4 (-8) ∧ (2 : Int) ^ 4 ∣ -8 - 8 := by decide

theorem witness_AlignmentIsExactLeftAndRoundsDownRight :
    ((7 : Int) ≤ 7 ∧ align (-9) 7 7 = -9) ∧ (7 : Int) < 8 ∧ align (-9) 7 8 = -5 := by decide

theorem witness_NegationDoesNotCommuteWithALossyShift :
    ((7 : Int) < 8 ∧ (2 : Int) ^ (8 - 7 : Int).toNat ∣ 8) ∧ ¬ (2 : Int) ^ (8 - 7 : Int).toNat ∣ 9 := by decide

theorem witness_RecordStandsForTheProduct :
    recordV41.prec.toNat = [true, false, true].length + 1 ∧ recordV41.wsign = true ∧
    recordV41.mag.toNat = recordV41.mu.toNat * bitsValue [true, false, true] := by decide

/-- At shift 0 and at a right shift by 1. -/
theorem witness_RealAccumulatorGrowsByTheProduct :
    (recordV41.fsign = (decodeOperand 0xB9#8).sign ∧ recordV41.exp = (decodeOperand 0xB9#8).exponent ∧
      recordV41.mu = mantissaUnit (decodeOperand 0xB9#8).mantissa ∧
      recordV41.prec.toNat = [true, false, true].length + 1 ∧ recordV41.wsign = true ∧
      recordV41.mag.toNat = recordV41.mu.toNat * bitsValue [true, false, true] ∧
      (2 : Int) ^ ((7#4).toNat - recordV41.exp.toNat) ∣ weightSignCorrect recordV41 ∧
      1 ≤ 16 ∧ InRange 16 (0 + contribution recordV41 7#4)) ∧
    recordEven.fsign = (decodeOperand 0x38#8).sign ∧ recordEven.exp = (decodeOperand 0x38#8).exponent ∧
      recordEven.mu = mantissaUnit (decodeOperand 0x38#8).mantissa ∧
      recordEven.prec.toNat = [true, false, true].length + 1 ∧ recordEven.wsign = true ∧
      recordEven.mag.toNat = recordEven.mu.toNat * bitsValue [true, false, true] ∧
      (2 : Int) ^ ((8#4).toNat - recordEven.exp.toNat) ∣ weightSignCorrect recordEven ∧
      InRange 16 (100 + contribution recordEven 8#4) := by decide

theorem witness_WaitingAndStallingChangeNothing :
    (let s := atMult ⟨false, 0#4, 7#4⟩ { Block.reset with opq := [0xB8#8] }
     s.phase = .mult 0 ∧ s.block.mstate = .idle ∧ s.inputs.valid = false) ∧
    (let s := atMult ⟨true, 0#4, 7#4⟩ Block.reset
     s.phase = .mult 0 ∧ s.block.mstate = .idle ∧ s.inputs.valid = true ∧ s.block.opq = []) ∧
    (let s := atMult ⟨true, 4#4, 7#4⟩ { blockV26 with wbq := [] }
     s.phase = .mult 0 ∧ s.block.mstate = .compute ∧ s.block.wbq = []) := by decide

theorem witness_IllegalPrecisionSetsErrAndNothingElse :
    let s := atMult ⟨true, 0#4, 7#4⟩ { Block.reset with opq := [0x38#8] }
    s.phase = .mult 0 ∧ s.block.mstate = .idle ∧ s.inputs.valid = true ∧ s.block.opq ≠ [] ∧
      ¬ (1 ≤ s.inputs.precision.toNat ∧ s.inputs.precision.toNat ≤ 15) := by decide

/-- At the least and at the greatest precision. -/
theorem witness_AcceptLoadsTheOperand :
    ∀ precision ∈ [1#4, 15#4],
      let s := atMult ⟨true, precision, 7#4⟩ { Block.reset with opq := [0xB8#8, 0x30#8] }
      s.phase = .mult 0 ∧ s.block.mstate = .idle ∧ s.inputs.valid = true ∧ s.block.opq = 0xB8#8 :: [0x30#8] ∧
        1 ≤ s.inputs.precision.toNat ∧ s.inputs.precision.toNat ≤ 15 := by decide

theorem witness_MagnitudeBitAddsAndDoubles :
    BlockInv stateV26.params stateV26.block ∧ stateV26.phase = .mult 0 ∧ stateV26.block.mstate = .compute ∧
      stateV26.block.wbq = true :: [false, false] ∧ stateV26.block.cnt.toNat + 1 < stateV26.block.prec.toNat :=
  ⟨blockV26_inv, by decide, by decide, by decide, by decide⟩

theorem witness_SignBitIsStoredAndEndsCompute :
    let s := atMult ⟨true, 4#4, 7#4⟩ blockV29
    s.phase = .mult 0 ∧ s.block.mstate = .compute ∧ s.block.wbq = true :: [] ∧
      s.block.cnt.toNat + 1 = s.block.prec.toNat := by decide

theorem witness_EmitPushesTheRecord :
    let s := atMult ⟨true, 4#4, 7#4⟩ blockV31
    s.phase = .mult 0 ∧ s.block.mstate = .done ∧ s.block.resq.length < s.params.resqDepth := by decide

theorem witness_BlockHoldsTheResultForOneStep :
    (stateV32.phase = .mult 0 ∧ stateV32.block.mstate = .done ∧
      stateV32.block.resq.length = stateV32.params.resqDepth) ∧
    Config.Legal stateV32.params ∧ ∀ r ∈ stateV32.block.resq, r.prec ≠ 0#4 := by decide

theorem witness_NoRecordClearsOutValidOnly :
    let s := atAccum ⟨true, 4#4, 7#4⟩ { Block.reset with outValid := true }
    s.phase = .accum 0 ∧ s.block.resq = [] := by decide

/-- V41 at a right shift by 1 and at shift 0. -/
theorem witness_ConsumeAddsTheAlignedProduct :
    ∀ c ∈ [((8#4 : BitVec 4), (13 : Int)), (7#4, 27)],
      let s := atAccum ⟨true, 4#4, c.1⟩ { Block.reset with resq := [recordV41] }
      s.phase = .accum 0 ∧ s.block.resq = recordV41 :: [] ∧ 1 ≤ recordV41.prec.toNat ∧ 1 ≤ s.params.accW ∧
      (-27 : Int) = recordV41.mag.toInt -
        (if recordV41.wsign then (recordV41.mu.toNat : Int) * 2 ^ (recordV41.prec.toNat - 1) else 0) ∧
      (27 : Int) = (if recordV41.fsign then -(-27) else -27) ∧
      (s.inputs.refExp.toNat ≤ recordV41.exp.toNat →
        c.2 = 27 * 2 ^ (recordV41.exp.toNat - s.inputs.refExp.toNat)) ∧
      (recordV41.exp.toNat < s.inputs.refExp.toNat →
        c.2 * 2 ^ (s.inputs.refExp.toNat - recordV41.exp.toNat) ≤ 27 ∧
        27 < (c.2 + 1) * 2 ^ (s.inputs.refExp.toNat - recordV41.exp.toNat)) := by decide

theorem witness_RecordWithoutPrecisionIsRefused :
    let r : IResult := ⟨9#19, 7#4, false, false, 9#4, 0#4⟩
    let s := atAccum ⟨true, 4#4, 7#4⟩ { Block.reset with resq := [r] }
    s.phase = .accum 0 ∧ s.block.resq = r :: [] ∧ r.prec.toNat = 0 := by decide

/-- For ResetSetsTheWholeBlock, ClearSetsAccOnly and SetCfgDrivesTheInputsOnly: between steps, inside an operation. -/
theorem witness_ResetSetsTheWholeBlock : (atHost blockV26 0x0000#16).phase = .host := by decide

theorem witness_ClearSetsAccOnly : (atHost { blockV29 with acc := -16 } 0x2000#16).phase = .host := by decide

theorem witness_SetCfgDrivesTheInputsOnly : (atHost blockV31 0x41FF#16).phase = .host := by decide

/-- With bounded channels that have room for one element, and with unbounded ones. -/
theorem witness_PushesAppendToTheirChannel :
    (let s := { stateBounded with block := { blockV26 with wbq := [true, false] } }
     s.phase = .host ∧ (∀ c ∈ s.params.opqCap, s.block.opq.length < c) ∧
        ∀ c ∈ s.params.wbqCap, s.block.wbq.length < c) ∧
    (∀ c ∈ State.reset.params.opqCap, State.reset.block.opq.length < c) ∧
    ∀ c ∈ State.reset.params.wbqCap, State.reset.block.wbq.length < c := by decide

theorem witness_PushToAFullChannelIsNotAdmitted :
    (let s := { stateBounded with block := { blockV26 with opq := [0x30#8] } }
     s.phase = .host ∧ s.params.opqCap = some 1 ∧ s.block.opq.length = 1 ∧ s.params.wbqCap = some 3 ∧
        s.block.wbq.length = 3) ∧
    State.reset.params.opqCap = none ∧ State.reset.params.wbqCap = none := by decide

theorem witness_StepMoveStartsItsSteps :
    State.reset.phase = .host ∧ (1#13 : BitVec 13) ≠ 0#13 ∧ (8191#13 : BitVec 13) ≠ 0#13 ∧
    State.reset.configured = false ∧ { State.reset with configured := true }.configured = true := by decide

theorem witness_StepRunsTheSelectedInstruction :
    stateV26.phase = .mult 0 ∧ (atAccum ⟨true, 4#4, 7#4⟩ blockV26).phase = .accum 0 ∧
    (let s := atHost blockV26 0x6030#16
     s.phase = .host ∧ s.script = 0x6030#16 :: [] ∧ decode (.hcmd 0x6030#16) = .instr (.hPushOp 0x30#8)) ∧
    State.reset.phase = .host ∧ State.reset.script = [] := by decide

theorem witness_EveryPhaseHasAResult :
    stateV32.phase ≠ .host ∧ ∀ r ∈ stateV32.block.resq, r.prec ≠ 0#4 := by decide

theorem witness_EveryStepKeepsTheInvariant : Inv stateV26 ∧ ∃ t, step stateV26 = .next t := ⟨stateV26_inv, _, rfl⟩

theorem witness_ErrorBitsAreSticky :
    let s := { stateV26 with block := { blockV26 with err := 0b11#2 } }
    (∃ t, step s = .next t) ∧ currentWord s ≠ some (encode .hReset) ∧ s.block.err.getLsbD 0 = true ∧
      s.block.err.getLsbD 1 = true := ⟨⟨_, rfl⟩, by decide, by decide, by decide⟩

theorem witness_OnlyRejectRaisesInvalidPrecision :
    let s := atMult ⟨true, 0#4, 7#4⟩ { Block.reset with opq := [0x38#8] }
    ∃ t, step s = .next t ∧ s.block.err.getLsbD 0 = false ∧ t.block.err.getLsbD 0 = true :=
  ⟨_, rfl, by decide, by decide⟩

/-- V46: ACC 32767, contribution 1. -/
def stateV46 : State :=
  { atAccum ⟨true, 4#4, 7#4⟩
      { Block.reset with acc := 32767, resq := [⟨1#19, 7#4, false, false, 8#4, 4#4⟩] } with
    params := { Config.defaults with ovfCheck := true } }

theorem witness_OnlyACheckedOverflowRaisesAccOverflow :
    ∃ t, step stateV46 = .next t ∧ 1 ≤ stateV46.params.accW ∧ stateV46.block.err.getLsbD 1 = false ∧
      t.block.err.getLsbD 1 = true := ⟨_, rfl, by decide, by decide, by decide⟩

theorem witness_AccumulatorHasThreeWriters :
    (∃ t, step stateV46 = .next t ∧ t.block.acc ≠ stateV46.block.acc) ∧
    (∃ t, step (atHost { blockV26 with acc := 5 } 0x2000#16) = .next t ∧ t.block.acc ≠ 5) ∧
    ∃ t, step (atHost { blockV26 with acc := 5 } 0x0000#16) = .next t ∧ t.block.acc ≠ 5 :=
  ⟨⟨_, rfl, by decide⟩, ⟨_, rfl, by decide⟩, ⟨_, rfl, by decide⟩⟩

theorem witness_OnlyTheMultiplierPhaseWritesItsRegisters :
    (∃ t, step stateV46 = .next t) ∧ (∀ more, stateV46.phase ≠ .mult more) ∧
    currentWord stateV46 ≠ some (encode .hReset) := by
  refine ⟨⟨_, rfl⟩, fun _ h => ?_, by decide⟩
  cases h

theorem witness_ParametersNeverChangeAndInputsOnlyByCfg :
    ∃ t, step (atHost blockV26 0x41FF#16) = .next t ∧ t.inputs ≠ (atHost blockV26 0x41FF#16).inputs :=
  ⟨_, rfl, by decide⟩

theorem witness_UnsampledInputsDoNotMatter :
    blockV26.mstate ≠ .idle ∧ blockV26.resq = [] ∧
    (let i : Inputs := ⟨true, 4#4, 7#4⟩
     let j : Inputs := ⟨true, 4#4, 8#4⟩
     let k : Inputs := ⟨false, 0#4, 7#4⟩
     i ≠ j ∧ i.valid = j.valid ∧ i.precision = j.precision ∧ i ≠ k ∧ i.refExp = k.refExp) := by decide

/-- IDLE without an operand, IDLE without `valid`, and a whole step in which `ref_exp` alone is sampled. -/
theorem witness_UnsampledInputsDoNotMatter_precision_and_step :
    (let i : Inputs := ⟨true, 4#4, 7#4⟩
     let j : Inputs := ⟨true, 0#4, 7#4⟩
     i ≠ j ∧ Block.reset.mstate = .idle ∧ i.valid = j.valid ∧ Block.reset.opq = []) ∧
    (let i : Inputs := ⟨false, 4#4, 7#4⟩
     let j : Inputs := ⟨false, 0#4, 7#4⟩
     i ≠ j ∧ i.valid = j.valid ∧ i.valid = false) ∧
    (let i : Inputs := ⟨true, 4#4, 7#4⟩
     let j : Inputs := ⟨false, 0#4, 7#4⟩
     i ≠ j ∧ blockV31.mstate ≠ .idle ∧ (multiplierPhase Config.defaults i blockV31).resq ≠ [] ∧
      i.refExp = j.refExp) := by decide

theorem witness_TwoTransitionsAreOneStep : stateV26.phase = .mult 0 ∧ stateV32.phase = .mult 0 := by decide

theorem witness_StepMovePerformsItsSteps :
    let s := { atHost blockV26 0xA002#16 with inputs := ⟨true, 4#4, 7#4⟩, configured := true }
    s.phase = .host ∧ s.configured = true ∧ decode (.hcmd 0xA002#16) = .instr (.hStep 2#13) ∧
      s.script = 0xA002#16 :: [] ∧
      ∃ b, pipelineSteps s.params s.inputs (2#13).toNat s.block = some b ∧ faulted b = false :=
  ⟨by decide, by decide, by decide, by decide, _, rfl, by decide⟩

/-- A host turn that pushes to both channels. -/
theorem witness_StepMovePerformsItsSteps_turn :
    let d : HostTurn := ⟨[0x30#8, 0x38#8], [true], ⟨true, 4#4, 7#4⟩⟩
    let s := { State.reset with block := blockV26, script := assemble d.lines ++ [0x2000#16] }
    s.phase = .host ∧ s.params.opqCap = none ∧ s.params.wbqCap = none ∧
      s.script = assemble d.lines ++ [0x2000#16] ∧
      ∃ b, drivenStep s.params d s.block = some b ∧ faulted b = false :=
  ⟨by decide, by decide, by decide, by decide, _, rfl, by decide⟩

/-- A host turn that pushes nothing. -/
def quiet (refExp : BitVec 4) : HostTurn := ⟨[], [], ⟨true, 4#4, refExp⟩⟩

/-- V1 at `ref_exp` 7 and 8: the operand comes with the first step and each bit with the step that takes it; the other
inputs change in between. -/
theorem witness_OneOperationAddsItsProduct :
    ∀ c ∈ [((7#4 : BitVec 4), (-16 : Int)), (8#4, -8)],
      let first : HostTurn := ⟨[0xB8#8], [], ⟨true, 4#4, 0#4⟩⟩
      let mid : List HostTurn :=
        [⟨[], [false], ⟨false, 0#4, 1#4⟩⟩, ⟨[0x38#8], [true], ⟨true, 9#4, 2#4⟩⟩, ⟨[], [false], ⟨true, 0#4, 3#4⟩⟩,
          ⟨[], [false, true], ⟨false, 4#4, 4#4⟩⟩]
      let last := quiet c.1
      let b := Block.reset
      Config.Legal Config.defaults ∧ mid.length = [false, true, false].length + 1 ∧ first.inputs.valid = true ∧
      first.inputs.precision.toNat = [false, true, false].length + 1 ∧ b.mstate = .idle ∧ b.resq = [] ∧
      b.opq ++ first.ops = 0xB8#8 :: [] ∧
      b.wbq ++ pushedBits (first :: mid ++ [last]) = [false, true, false] ++ false :: [true] ∧
      (∀ k ≤ [false, true, false].length, k < (b.wbq ++ pushedBits ((first :: mid).take (k + 2))).length) ∧
      (last.inputs.refExp.toNat ≤ (0xB8#8).toNat / 8 % 16 →
        c.2 = -16 * 2 ^ ((0xB8#8).toNat / 8 % 16 - last.inputs.refExp.toNat)) ∧
      ((0xB8#8).toNat / 8 % 16 < last.inputs.refExp.toNat →
        c.2 * 2 ^ (last.inputs.refExp.toNat - (0xB8#8).toNat / 8 % 16) ≤ -16 ∧
        -16 < (c.2 + 1) * 2 ^ (last.inputs.refExp.toNat - (0xB8#8).toNat / 8 % 16)) ∧
      (-16 : Int) = (if (0xB8#8).getLsbD 7 then -1 else 1) * (8 + ((0xB8#8).toNat : Int) % 8)
        * weightValue ([false, true, false] ++ [false]) ∧
      ∃ b', drivenSteps Config.defaults (first :: mid ++ [last]) b = some b' ∧ faulted b' = false := by
  intro c hc
  simp only [List.mem_cons, List.not_mem_nil, or_false] at hc
  rcases hc with rfl | rfl <;>
    exact ⟨by decide, by decide, by decide, by decide, by decide, by decide, by decide, by decide, by decide, by decide,
      by decide, by decide, _, rfl, by decide⟩

/-- From COMPUTE with one bit taken (V26), the last bit coming late but in time; and at the least precision, where the
next bit is the sign bit. -/
theorem witness_OneOperationAddsItsProduct_compute :
    (let mid := [quiet 7#4, quiet 7#4, ⟨[], [false], ⟨true, 4#4, 7#4⟩⟩]
     let b := { blockV26 with wbq := [true, false] }
     Config.Legal Config.defaults ∧ BlockInv Config.defaults b ∧ b.mstate = .compute ∧ b.resq = [] ∧
      [false].length = b.cnt.toNat ∧ b.lacc.toNat = b.mu.toNat * bitsValue [false] ∧
      [false].length + [true, false].length + 1 = b.prec.toNat ∧ mid.length = [true, false].length + 1 ∧
      b.wbq ++ pushedBits (mid ++ [quiet 7#4]) = [true, false] ++ false :: [] ∧
      (∀ k ≤ [true, false].length, k < (b.wbq ++ pushedBits (mid.take (k + 1))).length) ∧
      OnScale ((if b.fsign then -1 else 1) * b.mu.toNat * weightValue ([false] ++ [true, false] ++ [false]))
        b.fexp.toNat (quiet 7#4).inputs.refExp.toNat 0) ∧
    (let b := { Block.reset with mstate := .compute, mu := 8#4, work := 8#18, prec := 1#4, wbq := [true] }
     Config.Legal Config.defaults ∧ BlockInv Config.defaults b ∧ b.mstate = .compute ∧
      ([] : List Bool).length + ([] : List Bool).length + 1 = b.prec.toNat ∧
      b.wbq ++ pushedBits ([quiet 0#4] ++ [quiet 0#4]) = [] ++ true :: [] ∧
      (∀ k ≤ 0, k < (b.wbq ++ pushedBits ([quiet 0#4].take (k + 1))).length) ∧
      OnScale ((if b.fsign then -1 else 1) * b.mu.toNat * weightValue ([] ++ [] ++ [true])) b.fexp.toNat
        (quiet 0#4).inputs.refExp.toNat (-8)) := by
  refine ⟨⟨by decide, ⟨by decide, by decide, by decide, by decide, by decide, by decide⟩, by decide, by decide,
    by decide, by decide, by decide, by decide, by decide, by decide, ⟨by decide, by decide⟩⟩,
    ⟨by decide, ⟨by decide, by decide, by decide, by decide, by decide, by decide⟩, by decide, by decide, by decide,
    by decide, ⟨by decide, by decide⟩⟩⟩

/-- A missing bit, a missing operand and a missing `valid`; and an end without an error bit. -/
theorem witness_OneOperationAddsItsProduct_stall :
    (let b := { blockV26 with wbq := [] }
     b.resq = [] ∧ b.mstate = .compute ∧ b.wbq ++ (quiet 7#4).bits = []) ∧
    (Block.reset.resq = [] ∧ Block.reset.mstate = .idle ∧ Block.reset.opq ++ (quiet 7#4).ops = []) ∧
    (⟨[0x38#8], [true], ⟨false, 4#4, 7#4⟩⟩ : HostTurn).inputs.valid = false ∧
    ∃ b', drivenSteps Config.defaults [quiet 7#4, ⟨[0x38#8], [true], ⟨true, 4#4, 7#4⟩⟩] Block.reset = some b' ∧
      faulted b' = false :=
  ⟨by decide, by decide, by decide, _, rfl, by decide⟩

/-- After the first step, after the last but one, and after a later step without the last bit. -/
theorem witness_NoResultBeforeTheLastStepOfAnOperation :
    let first : HostTurn := ⟨[0xB8#8], [false, true, false], ⟨true, 4#4, 7#4⟩⟩
    let b := Block.reset
    faulted b = false ∧ first.inputs.valid = true ∧ 1 ≤ first.inputs.precision.toNat ∧ b.mstate = .idle ∧ b.resq = [] ∧
    b.opq ++ first.ops ≠ [] ∧ ([] : List HostTurn).length ≤ first.inputs.precision.toNat ∧
    (List.replicate 4 (⟨[], [false], ⟨true, 4#4, 7#4⟩⟩ : HostTurn)).length ≤ first.inputs.precision.toNat ∧
    (b.wbq ++ pushedBits (first :: List.replicate 9 (quiet 7#4))).length < first.inputs.precision.toNat := by decide

theorem witness_ResultChannelNeverGrowsAndItsDepthDoesNotMatter :
    (∃ b, pipelineStep stateV32.params stateV32.inputs stateV32.block = some b) ∧
    (1 ≤ 1 ∧ 1 ≤ Config.defaults.resqDepth ∧ blockV31.resq = []) ∧
    ∃ b, pipelineSteps Config.defaults ⟨false, 4#4, 7#4⟩ 2 blockV31 = some b ∧ faulted b = false :=
  ⟨⟨_, rfl⟩, by decide, _, rfl, by decide⟩

theorem witness_ConsumptionComesWithEmissionOnly :
    let s := atMult ⟨true, 4#4, 7#4⟩ blockV31
    s.phase = .mult 0 ∧ s.block.resq = [] ∧ 1 ≤ s.params.resqDepth ∧ ∃ t, step s = .next t :=
  ⟨by decide, by decide, by decide, _, rfl⟩

theorem witness_QuiescentPipelineStaysAsItIs :
    let b := { Block.reset with acc := -16, outValid := true, cnt := 4#4 }
    b.quiescent = true ∧ 1 ≤ 1 ∧ faulted b = false := by decide

theorem witness_OverflowCheckChangesOnlyItsBit :
    (∃ b, pipelineStep { stateV46.params with ovfCheck := false } stateV46.inputs stateV46.block = some b) ∧
    ∃ b, pipelineStep { stateV46.params with ovfCheck := true } stateV46.inputs stateV46.block = some b :=
  ⟨⟨_, rfl⟩, ⟨_, rfl⟩⟩

/-- A full operand channel, and both values of `rst`. -/
theorem witness_PortCycleIsItsHostMovesThenAStep :
    let s := { stateBounded with block := { blockV26 with opq := [0x30#8] } }
    let x : PortIn := ⟨false, true, true, 0x38#8, true, true, ⟨true, 4#4, 7#4⟩⟩
    s.phase = .host ∧ s.block.opFull s.params = true ∧ x.rst = false ∧ { x with rst := true }.rst = true := by decide

/-- Inside a step, with a script to run after it. -/
theorem witness_WellFormedScriptsAreNeverRefused :
    let lines : List Instr := [.hReset, .hSetCfg true 4#4 7#4, .hPushOp 0xB8#8, .hPushWb true, .hStep 6#13]
    let s := { stateV26 with script := assemble lines }
    RunsScript s lines ∧ (∃ t, run 1 s = .next t ∧ faulted t.block = false) ∧ faulted s.block = false ∧
      s.params.ovfCheck = false ∧ ((s.phase = .host → s.configured = true) → 1 ≤ s.inputs.precision.toNat) ∧
      ∀ (v : Bool) (p r : BitVec 4), Instr.hSetCfg v p r ∈ lines → 1 ≤ p.toNat := by
  refine ⟨⟨⟨by decide, blockV26_inv, ⟨by decide, by decide, by decide⟩, rfl⟩, by decide, by decide, by decide, rfl⟩,
    ⟨_, rfl, by decide⟩, by decide, by decide, by decide, fun v p r h => ?_⟩
  simp only [List.mem_cons, List.not_mem_nil, reduceCtorEq, Instr.hSetCfg.injEq, false_or, or_false] at h
  obtain ⟨rfl, rfl, rfl⟩ := h
  decide

/-- Between steps before the first CFG, where the driven precision need not be legal. -/
theorem witness_WellFormedScriptsAreNeverRefused_reset :
    let lines : List Instr := [.hSetCfg true 1#4 7#4, .hStep 1#13]
    let s := { State.reset with script := assemble lines }
    scriptWellFormed s.configured lines = true ∧ s.params.opqCap = none ∧ s.params.wbqCap = none ∧
      faulted s.block = false ∧ s.params.ovfCheck = false ∧
      ((s.phase = .host → s.configured = true) → 1 ≤ s.inputs.precision.toNat) := by decide

theorem witness_TheTwoErrorsAreNotRaisedTogether :
    let p := { Config.defaults with ovfCheck := true }
    let b := { blockV31 with acc := -32768 }
    b.resq = [] ∧ (∃ b', pipelineStep p ⟨true, 4#4, 7#4⟩ b = some b') ∧ b.err.getLsbD 0 = false ∧
      b.err.getLsbD 1 = false := ⟨by decide, ⟨_, rfl⟩, by decide, by decide⟩

end Sys2Proof.Tests
end

