-- ==== Sys2Proof/Proofs/Wrap.lean ====
section
/-! The wrap to `N` bits by what it answers: one integer, given by its range and its congruence (spec/00_scope.md R11). -/

namespace Sys2Proof.Machine

/-- The range of `n` bits by the two bounds that `Int.bmod` has for the modulus `2^n`. -/
theorem inRange_iff_bmod_bounds {n : Nat} {y : Int} (hn : 1 ≤ n) :
    InRange n y ↔ -(((2 ^ n : Nat) : Int) / 2) ≤ y ∧ y < (((2 ^ n : Nat) : Int) + 1) / 2 := by
  obtain ⟨k, rfl⟩ : ∃ k, n = k + 1 := ⟨n - 1, by omega⟩
  have hpow : ((2 ^ (k + 1) : Nat) : Int) = 2 ^ k * 2 := by push_cast; exact pow_succ 2 k
  rw [InRange, Nat.add_sub_cancel, hpow]
  omega

/-- An integer is the wrapped value exactly if it is in the range and congruent to what is wrapped. -/
theorem wrap_eq_iff {n : Nat} {x y : Int} (hn : 1 ≤ n) :
    wrap n x = y ↔ InRange n y ∧ (2 : Int) ^ n ∣ y - x := by
  rw [wrap, Int.bmod_eq_iff (by positivity), inRange_iff_bmod_bounds hn, and_assoc]
  push_cast
  rfl

/-- Settles O14: the range and the congruence characterise `wrap`. -/
theorem wrapIsTheOneCongruentValueInRange : Obligations.WrapIsTheOneCongruentValueInRange := by
  intro n x hn
  obtain ⟨hrange, hcongr⟩ := (wrap_eq_iff (x := x) hn).1 rfl
  exact ⟨hrange, hcongr, fun y hy hdvd => ((wrap_eq_iff hn).2 ⟨hy, hdvd⟩).symm⟩

end Sys2Proof.Machine
end

