-- ==== Sys2Proof/Proofs/Dispatch.lean ====
section
/-! Which instruction a step runs, one equation for each way a state selects (spec/00_scope.md R17). The phases and
the step without a script line are the model's own (log entries 1 and 2). -/

namespace Sys2Proof.Machine

/-- 30 R101: MSEL selects in the multiplier phase. -/
theorem step_eq_exec_of_mult {s : State} {more : Nat} (hp : s.phase = .mult more) :
    step s = exec (decodeMsel (mselWord s.params s.inputs s.block)) s := by
  simp only [step, currentWord, hp, decode, advance]

/-- 30 R102: ASEL selects in the accumulator phase. -/
theorem step_eq_exec_of_accum {s : State} {more : Nat} (hp : s.phase = .accum more) :
    step s = exec (decodeAsel (aselWord s.inputs s.block)) s := by
  simp only [step, currentWord, hp, decode, advance]

/-- 30 R106: between steps the next script line selects, and the script moves past it. -/
theorem step_eq_exec_of_host {s : State} {w : Hcmd} {rest : List Hcmd} {i : Instr} (hp : s.phase = .host)
    (hscript : s.script = w :: rest) (hd : decode (.hcmd w) = .instr i) :
    step s = exec i { s with script := rest } := by
  simp only [step, currentWord, hp, hscript, List.head?_cons, Option.map_some, hd, advance, List.tail_cons]

/-- Between steps without a script line nothing changes. -/
theorem step_of_host_script_nil {s : State} (hp : s.phase = .host) (hscript : s.script = []) :
    step s = .next s := by
  simp only [step, currentWord, hp, hscript, List.head?_nil, Option.map_none]

/-- Settles O37: each way of selecting has its equation. -/
theorem stepRunsTheSelectedInstruction : Obligations.StepRunsTheSelectedInstruction :=
  ⟨fun _ _ => step_eq_exec_of_mult, fun _ _ => step_eq_exec_of_accum,
    fun _ _ _ _ => step_eq_exec_of_host, fun _ => step_of_host_script_nil⟩

end Sys2Proof.Machine
end

