-- ==== Sys2Proof/Proofs/HostWords.lean ====
section
/-! A script word has one meaning: the word of what it decodes to is the word itself (spec/30_encoding.md R103). So
the word of a host move names the move. -/

namespace Sys2Proof.Laws

theorem decodePlain_eq_instr {z : Bool} {i j : Instr} : decodePlain z i = .instr j ↔ z = true ∧ i = j := by
  cases z <;> simp [decodePlain]

theorem hcmdWord_eq {n : Nat} {w : Hcmd} (h : n = w.toNat) : hcmdWord n = .hcmd w := by
  rw [hcmdWord, h, BitVec.ofNat_toNat, BitVec.setWidth_eq]

/-- 30 R103: the number of the command, the bits it lists and zeros elsewhere make up the whole word. -/
theorem encode_of_decode_hcmd {w : Hcmd} {i : Instr} (h : decode (.hcmd w) = .instr i) : encode i = .hcmd w := by
  have hlt := w.isLt
  simp only [decode, decodeHcmd] at h
  split_ifs at h <;>
    simp only [decodePlain_eq_instr, Decoded.instr.injEq, beq_iff_eq, ← BitVec.toNat_inj,
      extractLsb'_toNat_eq, BitVec.toNat_ofNat] at *
  · obtain ⟨hzero, rfl⟩ := h
    exact hcmdWord_eq (by omega)
  · obtain ⟨hzero, rfl⟩ := h
    exact hcmdWord_eq (by omega)
  · obtain ⟨hzero, rfl⟩ := h
    refine hcmdWord_eq ?_
    rw [BitVec.getLsbD, Nat.toNat_testBit, extractLsb'_toNat_eq, extractLsb'_toNat_eq]
    omega
  · obtain ⟨hzero, rfl⟩ := h
    exact hcmdWord_eq (by rw [extractLsb'_toNat_eq]; omega)
  · obtain ⟨hzero, rfl⟩ := h
    exact hcmdWord_eq (by rw [BitVec.getLsbD, Nat.toNat_testBit]; omega)
  all_goals
    subst h
    exact hcmdWord_eq (by rw [extractLsb'_toNat_eq]; omega)

end Sys2Proof.Laws
end

