-- ==== Sys2Proof/Proofs/StepCases.lean ====
section
/-! Everything one step can do, said once (spec/00_scope.md R17): the two phases of 42_controller.md R170 and the host
moves of R174 to R180. What every step keeps is proved by cases over it. -/

namespace Sys2Proof.Machine

open Sys2Proof.Laws

/-- Everything the multiplier phase can do to a block: it leaves it, or does one of five things under its guard
(40 R121). -/
theorem multiplierPhase_cases {motive : Block → Prop} (p : Params) (i : Inputs) (b : Block)
    (stay : motive b)
    (reject : b.mstate = .idle → i.valid = true → b.opq ≠ [] → precisionLegal i.precision = false →
      motive (b.raise .invalidPrecision))
    (accept : ∀ w rest, b.mstate = .idle → i.valid = true → b.opq = w :: rest → precisionLegal i.precision = true →
      motive (b.accept i.precision))
    (magnitude : ∀ x rest, b.mstate = .compute → b.wbq = x :: rest → b.cnt.toNat + 1 < b.prec.toNat →
      motive b.magnitudeBit)
    (sign : ∀ x rest, b.mstate = .compute → b.wbq = x :: rest → b.prec.toNat ≤ b.cnt.toNat + 1 → motive b.signBit)
    (emit : b.mstate = .done → b.resq.length < p.resqDepth → motive b.emit) :
    motive (multiplierPhase p i b) := by
  unfold multiplierPhase
  cases hm : b.mstate with
  | idle =>
    cases hq : b.opq with
    | nil => simpa using stay
    | cons w rest =>
      cases hv : i.valid with
      | false => simpa using stay
      | true =>
        cases hl : precisionLegal i.precision with
        | false => simpa using reject hm hv (by simp [hq]) hl
        | true => simpa using accept w rest hm hv hq hl
  | compute =>
    cases hq : b.wbq with
    | nil => simpa using stay
    | cons x rest =>
      by_cases hc : b.cnt.toNat + 1 < b.prec.toNat
      · simpa [Block.magnitudeNext, hc] using magnitude x rest hm hq hc
      · simpa [Block.magnitudeNext, hc] using sign x rest hm hq (by omega)
  | done =>
    by_cases hroom : b.resq.length < p.resqDepth
    · simpa [hroom] using emit hm hroom
    · simpa [hroom] using stay

theorem currentWord_of_accum {s : State} {more : Nat} (hp : s.phase = .accum more) :
    currentWord s = some (.asel (aselWord s.inputs s.block)) := by
  simp only [currentWord, hp]

theorem currentWord_of_host {s : State} {w : Hcmd} {rest : List Hcmd} {i : Instr} (hp : s.phase = .host)
    (hscript : s.script = w :: rest) (hd : decode (.hcmd w) = .instr i) : currentWord s = some (encode i) := by
  simp only [currentWord, hp, hscript, List.head?_cons, Option.map_some, encode_of_decode_hcmd hd]

/-- Everything a step can lead to, with the guards: one constructor for each phase's outcome and each host move. -/
inductive StepsTo (s : State) : State → Prop where
  /-- The multiplier phase (40 R121). -/
  | multiplier (more : Nat) (hp : s.phase = .mult more) :
    StepsTo s { s with block := multiplierPhase s.params s.inputs s.block, phase := .accum more }
  /-- A.IDLE (41 R151). -/
  | noResult (more : Nat) (hp : s.phase = .accum more) (hq : s.block.resq = []) :
    StepsTo s { s with block := s.block.noResult, phase := Phase.afterStep more }
  /-- A.CONSUME (41 R150). -/
  | consume (more : Nat) (r : IResult) (rest : List IResult) (hp : s.phase = .accum more)
      (hq : s.block.resq = r :: rest) (hprec : r.prec ≠ 0#4) :
    StepsTo s { s with
      block := Block.accumulate s.params (contribution r s.inputs.refExp) { s.block with resq := rest }
      phase := Phase.afterStep more }
  /-- No script line is left (60 R215). -/
  | scriptEnd (hp : s.phase = .host) (hscript : s.script = []) : StepsTo s s
  /-- H.RESET (70 R230). -/
  | reset (hp : s.phase = .host) (hw : currentWord s = some (encode .hReset)) :
    StepsTo s { s with script := s.script.tail, block := Block.reset, configured := false }
  /-- H.ACC_CLEAR (42 R179). -/
  | accClear (hp : s.phase = .host) (hw : currentWord s = some (encode .hAccClear)) :
    StepsTo s { s with script := s.script.tail, block := s.block.clearAcc }
  /-- H.SET_CFG (42 R175). -/
  | setCfg (v : Bool) (p r : BitVec 4) (hp : s.phase = .host)
      (hw : currentWord s = some (encode (.hSetCfg v p r))) :
    StepsTo s { s with script := s.script.tail, inputs := ⟨v, p, r⟩, configured := true }
  /-- H.PUSH_OP (42 R176). -/
  | pushOp (w : OpByte) (hp : s.phase = .host) (hw : currentWord s = some (encode (.hPushOp w)))
      (hroom : s.block.opFull s.params = false) :
    StepsTo s { s with script := s.script.tail, block := s.block.pushOp w }
  /-- H.PUSH_WB (42 R177). -/
  | pushWb (x : Bool) (hp : s.phase = .host) (hw : currentWord s = some (encode (.hPushWb x)))
      (hroom : s.block.wbFull s.params = false) :
    StepsTo s { s with script := s.script.tail, block := s.block.pushWb x }
  /-- H.STEP (42 R178). -/
  | stepMove (n : BitVec 13) (hp : s.phase = .host) (hw : currentWord s = some (encode (.hStep n)))
      (hn : n ≠ 0#13) (hcfg : s.configured = true) :
    StepsTo s { s with script := s.script.tail, phase := .mult (n.toNat - 1) }

theorem stepsTo_of_mult {s t : State} {more : Nat} (hp : s.phase = .mult more) (h : step s = .next t) :
    StepsTo s t := by
  rw [step_of_mult hp] at h
  cases h
  exact .multiplier more hp

theorem stepsTo_of_accum {s t : State} {more : Nat} (hp : s.phase = .accum more) (h : step s = .next t) :
    StepsTo s t := by
  rw [step_of_accum hp] at h
  cases hb : accumulatorPhase s.params s.inputs s.block with
  | none => rw [hb] at h; cases h
  | some b =>
    rw [hb] at h
    cases h
    obtain ⟨hq, rfl⟩ | ⟨r, rest, hq, hprec, rfl⟩ := accumulatorPhase_eq_some hb
    · exact .noResult more hp hq
    · exact .consume more r rest hp hq hprec

theorem stepsTo_of_host {s t : State} (hp : s.phase = .host) (h : step s = .next t) : StepsTo s t := by
  obtain ⟨hscript, rfl⟩ | ⟨w, rest, i, hscript, hd, he⟩ := step_of_host hp h
  · exact .scriptEnd hp hscript
  have hw := currentWord_of_host hp hscript hd
  obtain rfl : s.script.tail = rest := by rw [hscript, List.tail_cons]
  obtain ⟨rfl, rfl⟩ | ⟨rfl, rfl⟩ | ⟨v, p, r, rfl, rfl⟩ | ⟨w, rfl, hroom, rfl⟩ | ⟨x, rfl, hroom, rfl⟩ |
    ⟨n, rfl, hn, hcfg, rfl⟩ := exec_host (s := { s with script := s.script.tail }) hp he
  · exact .reset hp hw
  · exact .accClear hp hw
  · exact .setCfg v p r hp hw
  · exact .pushOp w hp hw hroom
  · exact .pushWb x hp hw hroom
  · exact .stepMove n hp hw hn hcfg

/-- A step that answers a next state goes one of these ways. -/
theorem stepsTo_of_step {s t : State} (h : step s = .next t) : StepsTo s t := by
  cases hp : s.phase with
  | host => exact stepsTo_of_host hp h
  | mult more => exact stepsTo_of_mult hp h
  | accum more => exact stepsTo_of_accum hp h

end Sys2Proof.Machine
end

