-- ==== Sys2Proof/Proofs/StateFrame.lean ====
section
/-! What a step leaves unchanged, element by element (spec/10_state.md R30 to R40): each statement by the ways a step
can go. -/

namespace Sys2Proof.Machine

/-- The nine registers of the multiplier are equal (10 R21 to R29). -/
def Block.SameRegisters (b c : Block) : Prop :=
  b.mstate = c.mstate ∧ b.fsign = c.fsign ∧ b.fexp = c.fexp ∧ b.mu = c.mu ∧ b.work = c.work ∧ b.lacc = c.lacc ∧
    b.cnt = c.cnt ∧ b.prec = c.prec ∧ b.wsign = c.wsign

theorem Block.sameRegisters_refl (b : Block) : b.SameRegisters b := ⟨rfl, rfl, rfl, rfl, rfl, rfl, rfl, rfl, rfl⟩

theorem Block.sameRegisters_accumulate (p : Params) (v3 : Int) (b : Block) :
    (b.accumulate p v3).SameRegisters b := by
  simp [Block.SameRegisters]

/-- The accumulator phase and the host moves but H.RESET write no register of the multiplier (10 R30). -/
theorem StepsTo.sameRegisters {s t : State} (h : StepsTo s t) (hp : ∀ more, s.phase ≠ .mult more)
    (hw : currentWord s ≠ some (encode .hReset)) : t.block.SameRegisters s.block := by
  cases h with
  | multiplier more hm => exact absurd hm (hp more)
  | reset _ hreset => exact absurd hreset hw
  | consume => exact Block.sameRegisters_accumulate _ _ _
  | noResult | scriptEnd | accClear | setCfg | pushOp | pushWb | stepMove => exact Block.sameRegisters_refl _

/-- Settles O46: the accumulator phase writes ACC, OUT_VALID, ERR and RESQ, the host moves ACC and the channels. -/
theorem onlyTheMultiplierPhaseWritesItsRegisters : Obligations.OnlyTheMultiplierPhaseWritesItsRegisters :=
  fun _ _ h hp hw => (stepsTo_of_step h).sameRegisters hp hw

/-- A bit of ERR that is 1 stays 1 when a cause is recorded beside it or not (60 R206). -/
theorem getLsbD_ite_or {c : Prop} [Decidable c] {e m : BitVec 2} {k : Nat} (h : e.getLsbD k = true) :
    (if c then e ||| m else e).getLsbD k = true := by
  split
  · rw [BitVec.getLsbD_or, h, Bool.true_or]
  · exact h

/-- Settles O42: the two phases only set bits of ERR, and no host move but H.RESET writes it. -/
theorem errorBitsAreSticky : Obligations.ErrorBitsAreSticky := by
  intro s t k h hw hk
  cases stepsTo_of_step h with
  | multiplier => rw [multiplierPhase_err]; exact getLsbD_ite_or hk
  | consume => rw [Block.accumulate_err]; exact getLsbD_ite_or hk
  | reset _ hreset => exact absurd hreset hw
  | noResult | scriptEnd | accClear | setCfg | pushOp | pushWb | stepMove => exact hk

/-- Settles O45: every other transition and host move leaves ACC as it is. -/
theorem accumulatorHasThreeWriters : Obligations.AccumulatorHasThreeWriters := by
  intro s t h hne
  cases stepsTo_of_step h with
  | consume _ _ _ hp hq =>
    exact .inl ⟨_, _, _, _, currentWord_of_accum hp, by rw [decodeAsel_aselWord, hq]⟩
  | accClear _ hw => exact .inr (.inl hw)
  | reset _ hw => exact .inr (.inr hw)
  | multiplier => exact absurd (multiplierPhase_acc _ _ _) hne
  | noResult | scriptEnd | setCfg | pushOp | pushWb | stepMove => exact absurd rfl hne

theorem StepsTo.params_eq {s t : State} (h : StepsTo s t) : t.params = s.params := by
  cases h <;> rfl

/-- Settles O47: the parameters stand in no update, the inputs in that of H.SET_CFG. -/
theorem parametersNeverChangeAndInputsOnlyByCfg : Obligations.ParametersNeverChangeAndInputsOnlyByCfg := by
  intro s t h
  have hcases := stepsTo_of_step h
  refine ⟨hcases.params_eq, fun hne => ?_⟩
  cases hcases with
  | setCfg _ _ _ _ hw => exact hw
  | multiplier | noResult | consume | scriptEnd | reset | accClear | pushOp | pushWb | stepMove => exact absurd rfl hne

/-- Settles O48: the rows that MSEL selects in IDLE are the four, and no other state selects one of them. -/
theorem readySaysThatTheNextBranchIsIdle : Obligations.ReadySaysThatTheNextBranchIsIdle := by
  intro p i b
  rw [decodeMsel_mselWord]
  cases hm : b.mstate with
  | idle => simp only [portOut, Block.ready, hm]; split_ifs <;> simp
  | compute => simp only [portOut, Block.ready, hm]; split_ifs <;> simp
  | done => simp only [portOut, Block.ready, hm]; split_ifs <;> simp

/-- Settles O36: the table of 10 R46 is `Block.reset`, field by field. -/
theorem resetLeavesTheValuesOfTheTable : Obligations.ResetLeavesTheValuesOfTheTable :=
  ⟨rfl, rfl, rfl, rfl, rfl, rfl, rfl, rfl, rfl, rfl⟩

end Sys2Proof.Machine
end

