-- ==== Sys2Proof/Proofs/Invariant.lean ====
section
/-! The invariant of the reachable state (spec/10_state.md R47) holds at reset, and every step keeps it. Each
operation of the multiplier keeps `BlockInv` by a lemma of its own. The rest of a step writes no register of the
multiplier, so there only ACC and the channels are at stake. -/

namespace Sys2Proof.Safety

open Sys2Proof.Machine

/-! The magnitude registers (40 R134) -/

theorem magnitudeOf_zero (mu : BitVec 4) : MagnitudeOf mu 0 0#19 := ⟨0, by simp⟩

/-- After at most 14 magnitude bits the magnitude is at most that of 14 ones. -/
theorem toNat_le_of_magnitudeOf {mu : BitVec 4} {k : Nat} {lacc : BitVec 19} (h : MagnitudeOf mu k lacc)
    (hk : k ≤ 14) : lacc.toNat ≤ 245745 := by
  obtain ⟨m, hm, hl⟩ := h
  have hpow : 2 ^ k ≤ 2 ^ 14 := Nat.pow_le_pow_right (by norm_num) hk
  calc lacc.toNat = mu.toNat * m := hl
    _ ≤ 15 * 16383 := Nat.mul_le_mul (by omega) (by omega)

theorem mul_two_pow_le (mu : BitVec 4) {k : Nat} (hk : k ≤ 14) : mu.toNat * 2 ^ k ≤ 245760 :=
  calc mu.toNat * 2 ^ k ≤ 15 * 2 ^ 14 :=
    Nat.mul_le_mul (by omega) (Nat.pow_le_pow_right (by norm_num) hk)

/-- The next magnitude bit, exact within the width of `lacc` (40 R126). -/
theorem magnitudeOf_add_bit {mu : BitVec 4} {k : Nat} {lacc : BitVec 19} {work : BitVec 18} (x : Bool)
    (h : MagnitudeOf mu k lacc) (hk : k ≤ 14) (hwork : work.toNat = mu.toNat * 2 ^ k) :
    MagnitudeOf mu (k + 1) (if x then lacc + work.setWidth 19 else lacc) := by
  have hbound := toNat_le_of_magnitudeOf h hk
  obtain ⟨m, hm, hl⟩ := h
  cases x with
  | false => exact ⟨m, by rw [pow_succ]; omega, hl⟩
  | true =>
    refine ⟨m + 2 ^ k, by rw [pow_succ]; omega, ?_⟩
    have hsum : (lacc + work.setWidth 19).toNat = lacc.toNat + work.toNat := by
      have := work.isLt
      rw [BitVec.toNat_add, BitVec.toNat_setWidth, Nat.mod_eq_of_lt (a := work.toNat) (by omega),
        Nat.mod_eq_of_lt (by omega)]
    rw [if_pos rfl, hsum, hl, hwork, Nat.mul_add]

/-- Doubling is exact within the width of `work` (40 R126). -/
theorem toNat_shiftLeft_one {mu : BitVec 4} {k : Nat} {work : BitVec 18} (hk : k + 1 ≤ 14)
    (hwork : work.toNat = mu.toNat * 2 ^ k) : (work <<< 1).toNat = mu.toNat * 2 ^ (k + 1) := by
  have hbound := mul_two_pow_le mu hk
  have hdouble : work.toNat * 2 ^ 1 = mu.toNat * 2 ^ (k + 1) := by rw [hwork, Nat.mul_assoc, ← pow_add]
  rw [BitVec.toNat_shiftLeft, Nat.shiftLeft_eq, hdouble, Nat.mod_eq_of_lt (by omega)]

theorem toNat_add_one {c : BitVec 4} (h : c.toNat < 15) : (c + 1#4).toNat = c.toNat + 1 := by
  rw [BitVec.toNat_add, BitVec.toNat_ofNat, Nat.mod_eq_of_lt]
  omega

theorem mantissaUnit_toNat (m : BitVec 3) : (mantissaUnit m).toNat = 8 + m.toNat := by
  revert m; decide

/-! The block's part of the invariant -/

section
variable {p : Params} {b c : Block} {s t : State} {more : Nat}

/-- In COMPUTE, `cnt` magnitude bits have been taken. -/
theorem BlockInv.of_compute (h : BlockInv p b) (hm : b.mstate = .compute) :
    b.cnt.toNat < b.prec.toNat ∧ 8 ≤ b.mu.toNat ∧ b.work.toNat = b.mu.toNat * 2 ^ b.cnt.toNat ∧
      MagnitudeOf b.mu b.cnt.toNat b.lacc := by
  obtain ⟨-, hcnt, hmu, hwork, hlacc⟩ := h.compute hm
  rw [Nat.min_eq_left (by omega)] at hwork hlacc
  exact ⟨hcnt, hmu, hwork, hlacc⟩

/-- What does not write the registers keeps their part of the invariant. -/
theorem BlockInv.of_sameRegisters (h : BlockInv p b) (hsame : c.SameRegisters b) (hacc : InRange p.accW c.acc)
    (hrecords : ∀ r ∈ c.resq, RecordOk r) : BlockInv p c := by
  obtain ⟨hmstate, -, -, hmu, hwork, hlacc, hcnt, hprec, -⟩ := hsame
  constructor
  case accRange => exact hacc
  case records => exact hrecords
  all_goals simp only [hmstate, hmu, hwork, hlacc, hcnt, hprec]
  case compute => exact h.compute
  case done => exact h.done
  case laccBound => exact h.laccBound
  case workBound => exact h.workBound

/-- ERR, OUT_VALID and the input channels are no part of it. -/
theorem BlockInv.of_kept (h : BlockInv p b) (hsame : c.SameRegisters b) (hacc : c.acc = b.acc)
    (hresq : c.resq = b.resq) : BlockInv p c :=
  h.of_sameRegisters hsame (hacc ▸ h.accRange) (hresq ▸ h.records)

theorem blockInv_raise (h : BlockInv p b) (e : Cause) : BlockInv p (b.raise e) :=
  h.of_kept b.sameRegisters_refl rfl rfl

/-- 40 R124: the working registers start with the mantissa unit and no magnitude bit. -/
theorem blockInv_accept {w : OpByte} {rest : List OpByte} {precision : BitVec 4} (h : BlockInv p b)
    (hq : b.opq = w :: rest) (hl : precisionLegal precision = true) : BlockInv p (b.accept precision) := by
  obtain ⟨hone, -⟩ := (precisionLegal_iff precision).1 hl
  have hunit := mantissaUnit_toNat (decodeOperand w).mantissa
  have hwork : ((mantissaUnit (decodeOperand w).mantissa).setWidth 18).toNat
      = (mantissaUnit (decodeOperand w).mantissa).toNat := BitVec.toNat_setWidth_of_le (by norm_num)
  rw [Block.accept_of_cons precision hq]
  constructor
  case compute =>
    rintro -
    simp only [BitVec.toNat_ofNat, Nat.zero_mod, Nat.zero_min, pow_zero, Nat.mul_one]
    exact ⟨hone, hone, by omega, hwork, magnitudeOf_zero _⟩
  case done => rintro ⟨⟩
  case laccBound => simp
  case workBound => simp only; omega
  case accRange => exact h.accRange
  case records => exact h.records

/-- 40 R126: `work` and `lacc` are those of one magnitude bit more. -/
theorem blockInv_magnitudeBit {x : Bool} {rest : List Bool} (h : BlockInv p b) (hm : b.mstate = .compute)
    (hq : b.wbq = x :: rest) (hc : b.cnt.toNat + 1 < b.prec.toNat) : BlockInv p b.magnitudeBit := by
  obtain ⟨-, hmu, hwork, hlacc⟩ := h.of_compute hm
  have hcnt := toNat_add_one (c := b.cnt) (by omega)
  have hwork' := toNat_shiftLeft_one (by omega) hwork
  have hlacc' := magnitudeOf_add_bit x hlacc (by omega) hwork
  rw [Block.magnitudeBit_of_cons hq]
  constructor
  case compute =>
    rintro -
    simp only [hcnt, Nat.min_eq_left (show b.cnt.toNat + 1 ≤ b.prec.toNat - 1 by omega)]
    exact ⟨by omega, hc, hmu, hwork', hlacc'⟩
  case done => exact fun hd => nomatch hm.symm.trans hd
  case laccBound => exact toNat_le_of_magnitudeOf hlacc' (by omega)
  case workBound => exact hwork'.trans_le (mul_two_pow_le _ (by omega))
  case accRange => exact h.accRange
  case records => exact h.records

/-- 40 R127: the counter reaches `prec`; `work` and `lacc` stay. -/
theorem blockInv_signBit {x : Bool} {rest : List Bool} (h : BlockInv p b) (hm : b.mstate = .compute)
    (hq : b.wbq = x :: rest) (hc : b.prec.toNat ≤ b.cnt.toNat + 1) : BlockInv p b.signBit := by
  obtain ⟨hlt, hmu, hwork, hlacc⟩ := h.of_compute hm
  have hcnt := toNat_add_one (c := b.cnt) (by omega)
  have htaken : b.prec.toNat - 1 = b.cnt.toNat := by omega
  rw [Block.signBit_of_cons hq]
  constructor
  case compute => rintro ⟨⟩
  case done =>
    rintro -
    simp only [htaken]
    exact ⟨by omega, BitVec.eq_of_toNat_eq (by omega), hmu, hwork, hlacc⟩
  case laccBound => exact h.laccBound
  case workBound => exact h.workBound
  case accRange => exact h.accRange
  case records => exact h.records

/-- 40 R128: the record of the registers in DONE is one that an emission can make. -/
theorem blockInv_emit (h : BlockInv p b) (hm : b.mstate = .done) : BlockInv p b.emit := by
  obtain ⟨hprec, -, hmu, -, hlacc⟩ := h.done hm
  constructor
  case compute => rintro ⟨⟩
  case done => rintro ⟨⟩
  case laccBound => exact h.laccBound
  case workBound => exact h.workBound
  case accRange => exact h.accRange
  case records =>
    rw [Block.emit_resq, List.forall_mem_append]
    exact ⟨h.records, List.forall_mem_singleton.2 ⟨hprec, hmu, hlacc⟩⟩

theorem blockInv_multiplierPhase (h : BlockInv p b) (i : Inputs) : BlockInv p (multiplierPhase p i b) :=
  multiplierPhase_cases p i b h (fun _ _ _ _ => blockInv_raise h _) (fun _ _ _ _ => blockInv_accept h)
    (fun _ _ => blockInv_magnitudeBit h) (fun _ _ => blockInv_signBit h) (fun hm _ => blockInv_emit h hm)

/-- A.CONSUME pops a record, and the wrapped sum is in range (41 R157). -/
theorem blockInv_accumulate (h : BlockInv p b) (hw : 1 ≤ p.accW) {r : IResult} {rest : List IResult}
    (hq : b.resq = r :: rest) (v3 : Int) : BlockInv p (Block.accumulate p v3 { b with resq := rest }) := by
  refine h.of_sameRegisters (Block.sameRegisters_accumulate p v3 _) ?_ ?_
  · rw [Block.accumulate_acc]
    exact ((wrap_eq_iff hw).1 rfl).1
  · rw [Block.accumulate_resq]
    exact fun x hx => h.records x (hq ▸ List.mem_cons_of_mem r hx)

theorem blockInv_reset (p : Params) : BlockInv p Block.reset where
  compute := by rintro ⟨⟩
  done := by rintro ⟨⟩
  laccBound := by decide
  workBound := by decide
  accRange := ⟨by simp [Block.reset], by simp [Block.reset]⟩
  records := by simp [Block.reset]

/-! The channels and the machine -/

theorem length_lt_of_chanFull {α : Type} {cap : Option Nat} {q : List α} (h : chanFull cap q = false) :
    ∀ n ∈ cap, q.length < n := by
  rintro n rfl
  simpa [chanFull] using h

/-- A channel that only loses elements stays within its capacity. -/
theorem ChannelsFit.of_length_le (h : ChannelsFit p b) (ho : c.opq.length ≤ b.opq.length)
    (hw : c.wbq.length ≤ b.wbq.length) (hr : c.resq.length ≤ p.resqDepth) : ChannelsFit p c where
  opq n hn := ho.trans (h.opq n hn)
  wbq n hn := hw.trans (h.wbq n hn)
  resq := hr

/-- The multiplier phase takes from the input channels, and emits only into room (20 R63). -/
theorem channelsFit_multiplierPhase (h : ChannelsFit p b) (i : Inputs) : ChannelsFit p (multiplierPhase p i b) := by
  refine multiplierPhase_cases p i b h ?reject ?accept ?magnitude ?sign ?emit
  case reject => exact fun _ _ _ _ => h.of_length_le le_rfl le_rfl h.resq
  case accept =>
    intro w rest _ _ hq _
    rw [Block.accept_of_cons _ hq]
    exact h.of_length_le (by simp [hq]) le_rfl h.resq
  case magnitude =>
    intro x rest _ hq _
    rw [Block.magnitudeBit_of_cons hq]
    exact h.of_length_le le_rfl (by simp [hq]) h.resq
  case sign =>
    intro x rest _ hq _
    rw [Block.signBit_of_cons hq]
    exact h.of_length_le le_rfl (by simp [hq]) h.resq
  case emit =>
    intro _ hroom
    exact h.of_length_le le_rfl le_rfl (by simpa using hroom)

theorem channelsFit_pushOp (h : ChannelsFit p b) (w : OpByte) (hroom : b.opFull p = false) :
    ChannelsFit p (b.pushOp w) where
  opq n hn := by simpa using length_lt_of_chanFull hroom n hn
  wbq := h.wbq
  resq := h.resq

theorem channelsFit_pushWb (h : ChannelsFit p b) (x : Bool) (hroom : b.wbFull p = false) :
    ChannelsFit p (b.pushWb x) where
  opq := h.opq
  wbq n hn := by simpa using length_lt_of_chanFull hroom n hn
  resq := h.resq

/-- From an empty result channel, the multiplier phase leaves at most the record just emitted (20 R77). -/
theorem multiplierPhase_resq_length_le (i : Inputs) (h : b.resq = []) :
    (multiplierPhase p i b).resq.length ≤ 1 := by
  rw [multiplierPhase_resq, h]
  split <;> simp

/-- An empty result channel fits in every phase. -/
theorem resqFits_of_nil (ph : Phase) (h : b.resq = []) : resqFits ph b := by
  cases ph <;> simp [resqFits, h]

theorem Inv.resq_of_host (h : Inv s) (hp : s.phase = .host) : s.block.resq = [] := by
  simpa only [hp, resqFits] using h.resq

theorem Inv.resq_of_mult (h : Inv s) (hp : s.phase = .mult more) : s.block.resq = [] := by
  simpa only [hp, resqFits] using h.resq

/-- A.CONSUME leaves the result channel empty (10 R47 (c)). -/
theorem Inv.resq_rest_of_accum (h : Inv s) (hp : s.phase = .accum more) {r : IResult} {rest : List IResult}
    (hq : s.block.resq = r :: rest) : rest = [] := by
  have hfit : s.block.resq.length ≤ 1 := by simpa only [hp, resqFits] using h.resq
  simpa [hq] using hfit

/-- Each way a step can go keeps the invariant. -/
theorem inv_of_stepsTo (h : StepsTo s t) (hs : Inv s) : Inv t := by
  cases h with
  | multiplier more hp =>
    exact ⟨hs.legal, blockInv_multiplierPhase hs.block _, channelsFit_multiplierPhase hs.channels _,
      multiplierPhase_resq_length_le _ (hs.resq_of_mult hp)⟩
  | noResult more hp hq =>
    exact ⟨hs.legal, hs.block.of_kept (Block.sameRegisters_refl _) rfl rfl,
      hs.channels.of_length_le le_rfl le_rfl hs.channels.resq, resqFits_of_nil _ hq⟩
  | consume more r rest hp hq _ =>
    obtain rfl := hs.resq_rest_of_accum hp hq
    obtain ⟨haccW, -⟩ := hs.legal
    exact ⟨hs.legal, blockInv_accumulate hs.block (by omega) hq _,
      hs.channels.of_length_le (by simp) (by simp) (by simp), resqFits_of_nil _ (by simp)⟩
  | scriptEnd => exact hs
  | reset =>
    exact ⟨hs.legal, blockInv_reset _, hs.channels.of_length_le (Nat.zero_le _) (Nat.zero_le _) (Nat.zero_le _),
      resqFits_of_nil _ rfl⟩
  | accClear =>
    have hzero : InRange s.params.accW 0 := (blockInv_reset s.params).accRange
    exact ⟨hs.legal, hs.block.of_sameRegisters (Block.sameRegisters_refl _) hzero hs.block.records,
      hs.channels.of_length_le le_rfl le_rfl hs.channels.resq, hs.resq⟩
  | setCfg => exact ⟨hs.legal, hs.block, hs.channels, hs.resq⟩
  | pushOp w hp _ hroom =>
    exact ⟨hs.legal, hs.block.of_kept (Block.sameRegisters_refl _) rfl rfl,
      channelsFit_pushOp hs.channels w hroom, hs.resq⟩
  | pushWb x hp _ hroom =>
    exact ⟨hs.legal, hs.block.of_kept (Block.sameRegisters_refl _) rfl rfl,
      channelsFit_pushWb hs.channels x hroom, hs.resq⟩
  | stepMove n hp => exact ⟨hs.legal, hs.block, hs.channels, resqFits_of_nil _ (hs.resq_of_host hp)⟩

end

/-- Settles O40: every register is 0 and every channel empty. -/
theorem invariantHoldsAtReset : Obligations.InvariantHoldsAtReset where
  legal := by decide
  block := blockInv_reset _
  channels := ⟨by simp [State.reset, Block.reset], by simp [State.reset, Block.reset], by decide⟩
  resq := rfl

/-- Settles O41: each way a step can go keeps it. -/
theorem everyStepKeepsTheInvariant : Obligations.EveryStepKeepsTheInvariant :=
  fun _ _ hs h => inv_of_stepsTo (stepsTo_of_step h) hs

end Sys2Proof.Safety
end

