-- ==== Sys2Proof/Proofs/Channels.lean ====
section
/-! The channels over a move and over a step (spec/20_memory.md R64, R77): a full input channel takes no push, and the
result channel never grows, so that from empty its depth does not matter. -/

namespace Sys2Proof.Machine

/-! The input channels -/

theorem chanFull_eq_true {α : Type} {cap : Option Nat} {q : List α} {c : Nat} (hcap : cap = some c)
    (hlen : q.length = c) : chanFull cap q = true := by
  simp [chanFull, hcap, hlen]

/-- 00 R13: an unbounded channel is never full. -/
theorem chanFull_eq_false {α : Type} {cap : Option Nat} (q : List α) (hcap : cap = none) :
    chanFull cap q = false := by
  simp [chanFull, hcap]

theorem exec_hPushOp_of_full {s : State} (w : OpByte) (hp : s.phase = .host)
    (hfull : s.block.opFull s.params = true) : exec (.hPushOp w) s = .refused .pushToFullChannel := by
  rw [exec, execHPushOp, hostMove_of_host _ hp, if_pos hfull]

theorem exec_hPushWb_of_full {s : State} (x : Bool) (hp : s.phase = .host)
    (hfull : s.block.wbFull s.params = true) : exec (.hPushWb x) s = .refused .pushToFullChannel := by
  rw [exec, execHPushWb, hostMove_of_host _ hp, if_pos hfull]

/-- Settles O34: at its capacity a channel is full, and the move of a push asks whether it is. -/
theorem pushToAFullChannelIsNotAdmitted : Obligations.PushToAFullChannelIsNotAdmitted :=
  fun _ hp =>
    ⟨fun _ w hcap hlen => exec_hPushOp_of_full w hp (chanFull_eq_true hcap hlen),
      fun _ x hcap hlen => exec_hPushWb_of_full x hp (chanFull_eq_true hcap hlen),
      chanFull_eq_false _, chanFull_eq_false _⟩

/-! The result channel -/

/-- The multiplier phase emits at most one record (40 R128). -/
theorem multiplierPhase_resq_length_le_succ (p : Params) (i : Inputs) (b : Block) :
    (multiplierPhase p i b).resq.length ≤ b.resq.length + 1 := by
  rw [multiplierPhase_resq]
  split <;> simp

/-- The accumulator phase takes the oldest record, if there is one (41 R150). -/
theorem accumulatorPhase_resq {p : Params} {i : Inputs} {b b' : Block} (h : accumulatorPhase p i b = some b') :
    b'.resq = b.resq.tail := by
  obtain ⟨hq, rfl⟩ | ⟨r, rest, hq, -, rfl⟩ := accumulatorPhase_eq_some h
  · rw [Block.noResult_resq, hq, List.tail_nil]
  · rw [Block.accumulate_resq, hq, List.tail_cons]

/-- 20 R77: at most one record comes in, and one goes out if there is one. -/
theorem pipelineStep_resq_length_le {p : Params} {i : Inputs} {b b' : Block} (h : pipelineStep p i b = some b') :
    b'.resq.length ≤ b.resq.length := by
  have hemit := multiplierPhase_resq_length_le_succ p i b
  rw [accumulatorPhase_resq h, List.length_tail]
  omega

theorem pipelineStep_resq_of_nil {p : Params} {i : Inputs} {b b' : Block} (hq : b.resq = [])
    (h : pipelineStep p i b = some b') : b'.resq = [] := by
  simpa [hq] using pipelineStep_resq_length_le h

/-- The depth stands in the guard of M.DONE.EMIT only, and an empty channel of any depth has room (20 R63). -/
theorem multiplierPhase_resqDepth {p : Params} {b : Block} {d : Nat} (i : Inputs) (hd : 1 ≤ d)
    (hp : 1 ≤ p.resqDepth) (hq : b.resq = []) :
    multiplierPhase { p with resqDepth := d } i b = multiplierPhase p i b := by
  have hroom : b.resq.length < d ∧ b.resq.length < p.resqDepth := by
    rw [hq]; exact ⟨hd, hp⟩
  cases hm : b.mstate with
  | idle | compute => simp only [multiplierPhase, hm]
  | done => simp only [multiplierPhase, hm, hroom, if_true]

/-- The accumulator phase reads no depth. -/
theorem accumulatorPhase_resqDepth (p : Params) (d : Nat) (i : Inputs) (b : Block) :
    accumulatorPhase { p with resqDepth := d } i b = accumulatorPhase p i b := rfl

theorem pipelineStep_resqDepth {p : Params} {b : Block} {d : Nat} (i : Inputs) (hd : 1 ≤ d)
    (hp : 1 ≤ p.resqDepth) (hq : b.resq = []) :
    pipelineStep { p with resqDepth := d } i b = pipelineStep p i b := by
  rw [pipelineStep, multiplierPhase_resqDepth i hd hp hq, accumulatorPhase_resqDepth, pipelineStep]

/-- From empty, every step of a run starts from empty, so no step reads the depth. -/
theorem pipelineSteps_resqDepth {p : Params} {b : Block} {d : Nat} (i : Inputs) (n : Nat) (hd : 1 ≤ d)
    (hp : 1 ≤ p.resqDepth) (hq : b.resq = []) :
    pipelineSteps { p with resqDepth := d } i n b = pipelineSteps p i n b := by
  induction n generalizing b with
  | zero => rfl
  | succ n ih =>
    simp only [pipelineSteps, pipelineStep_resqDepth i hd hp hq]
    cases hb : pipelineStep p i b with
    | none => rfl
    | some b' => exact ih (pipelineStep_resq_of_nil hq hb)

/-- Settles O54: a step and a run answer the same at both depths, so their results agree too. -/
theorem resultChannelNeverGrowsAndItsDepthDoesNotMatter :
    Obligations.ResultChannelNeverGrowsAndItsDepthDoesNotMatter :=
  ⟨fun _ _ _ _ => pipelineStep_resq_length_le, fun _ i _ _ hd hp hq =>
    ⟨pipelineStep_resqDepth i hd hp hq, fun _ => pipelineStep_resq_of_nil hq,
      fun n _ _ => by rw [pipelineSteps_resqDepth i n hd hp hq]⟩⟩

end Sys2Proof.Machine
end

