-- ==== Sys2Proof/Proofs/Selection.lean ====
section
/-! A step runs only what its state selects (spec/30_encoding.md R101, R102, 20_memory.md R76): in a phase the step is
that of the case trees, and between steps a script word is a host move, which the phase admits. -/

namespace Sys2Proof.Machine

/-- Only the host moves have a word of the format HCMD (30 R103). -/
theorem isHostMove_of_encode {w : Hcmd} {i : Instr} (h : encode i = .hcmd w) : i.isHostMove = true := by
  cases i with
  | hReset | hAccClear | hSetCfg | hPushOp | hPushWb | hStep | hReserved110 | hReserved111 => rfl
  | _ => cases h

/-- 20 R76: between steps the phase refuses no host move. -/
theorem exec_hostMove_ne_notSelected {s : State} {i : Instr} (hp : s.phase = .host) (hi : i.isHostMove = true) :
    exec i s ≠ .refused .notSelected := by
  cases i with
  | hReset => simp [exec, execHReset, hostMove_of_host _ hp]
  | hAccClear => simp [exec, execHAccClear, hostMove_of_host _ hp]
  | hSetCfg => simp [exec, execHSetCfg, hostMove_of_host _ hp]
  | hPushOp =>
    rw [exec, execHPushOp, hostMove_of_host _ hp]
    split <;> simp
  | hPushWb =>
    rw [exec, execHPushWb, hostMove_of_host _ hp]
    split <;> simp
  | hStep =>
    rw [exec, execHStep, hostMove_of_host _ hp]
    split_ifs <;> simp
  | hReserved110 | hReserved111 => nofun
  | _ => simp [Instr.isHostMove] at hi

/-- 30 R103: a script word that is no line refuses the step by the decoder's reason. -/
theorem step_of_host_reject {s : State} {w : Hcmd} {rest : List Hcmd} {r : Reject} (hp : s.phase = .host)
    (hscript : s.script = w :: rest) (hd : decode (.hcmd w) = .reject r) :
    step s = .refused (.illFormedMove r) := by
  simp only [step, currentWord, hp, hscript, List.head?_cons, Option.map_some, hd]

theorem step_ne_notSelected_of_host {s : State} (hp : s.phase = .host) : step s ≠ .refused .notSelected := by
  cases hscript : s.script with
  | nil => simp [step_of_host_script_nil hp hscript]
  | cons w rest =>
    cases hd : decode (.hcmd w) with
    | instr i =>
      rw [step_eq_exec_of_host hp hscript hd]
      exact exec_hostMove_ne_notSelected hp (isHostMove_of_encode (Laws.encode_of_decode_hcmd hd))
    | reject r => simp [step_of_host_reject hp hscript hd]

/-- Settles O38: the three phases, each by what its step is. -/
theorem stepNeverRunsAnUnselectedInstruction : Obligations.StepNeverRunsAnUnselectedInstruction := by
  intro s
  cases hp : s.phase with
  | host => exact step_ne_notSelected_of_host hp
  | mult more => simp [step_of_mult hp]
  | accum more =>
    rw [step_of_accum hp]
    split <;> simp

end Sys2Proof.Machine
end

