-- ==== Sys2Proof/Proofs/Encoding.lean ====
section
/-! The decoder and the encoder as inverses (spec/30_encoding.md R100 to R103). The word of a script line with operands
is given by its number, and each field of the word is a quotient of that number modulo the field's size. -/

namespace Sys2Proof.Laws

open Sys2Proof.Machine

theorem extractLsb'_eq_of_toNat {n start len : Nat} {w : BitVec n} {x : BitVec len}
    (h : w.toNat / 2 ^ start % 2 ^ len = x.toNat) : w.extractLsb' start len = x :=
  BitVec.eq_of_toNat_eq ((extractLsb'_toNat_eq w start len).trans h)

theorem getLsbD_eq_of_toNat {n k : Nat} {w : BitVec n} {x : Bool} (h : w.toNat / 2 ^ k % 2 = x.toNat) :
    w.getLsbD k = x := by
  rw [getLsbD_eq_decide, h]
  cases x <;> rfl

/-! The script words with operands, by their numbers (30 R103) -/

theorem decode_hSetCfg {w : Hcmd} {v : Bool} {p r : BitVec 4}
    (h : w.toNat = 0x4000 + 256 * v.toNat + 16 * p.toNat + r.toNat) : decode (.hcmd w) = .instr (.hSetCfg v p r) := by
  have hv := v.toNat_le
  have hcmd : w.extractLsb' 13 3 = 0b010#3 := extractLsb'_eq_of_toNat (by simp; omega)
  have hzero : w.extractLsb' 9 4 = 0#4 := extractLsb'_eq_of_toNat (by simp; omega)
  have hvalid : w.getLsbD 8 = v := getLsbD_eq_of_toNat (by omega)
  have hprec : w.extractLsb' 4 4 = p := extractLsb'_eq_of_toNat (by omega)
  have href : w.extractLsb' 0 4 = r := extractLsb'_eq_of_toNat (by omega)
  simpa [decode, decodeHcmd, decodePlain, hcmd, hzero, hprec, href] using hvalid

theorem decode_hPushOp {w : Hcmd} {b : OpByte} (h : w.toNat = 0x6000 + b.toNat) :
    decode (.hcmd w) = .instr (.hPushOp b) := by
  have hcmd : w.extractLsb' 13 3 = 0b011#3 := extractLsb'_eq_of_toNat (by simp; omega)
  have hzero : w.extractLsb' 8 5 = 0#5 := extractLsb'_eq_of_toNat (by simp; omega)
  have hbyte : w.extractLsb' 0 8 = b := extractLsb'_eq_of_toNat (by omega)
  simp [decode, decodeHcmd, decodePlain, hcmd, hzero, hbyte]

theorem decode_hPushWb {w : Hcmd} {x : Bool} (h : w.toNat = 0x8000 + x.toNat) :
    decode (.hcmd w) = .instr (.hPushWb x) := by
  have hx := x.toNat_le
  have hcmd : w.extractLsb' 13 3 = 0b100#3 := extractLsb'_eq_of_toNat (by simp; omega)
  have hzero : w.extractLsb' 1 12 = 0#12 := extractLsb'_eq_of_toNat (by simp; omega)
  have hbit : w.getLsbD 0 = x := getLsbD_eq_of_toNat (by omega)
  simpa [decode, decodeHcmd, decodePlain, hcmd, hzero] using hbit

theorem decode_hStep {w : Hcmd} {n : BitVec 13} (hn : n ≠ 0#13) (h : w.toNat = 0xA000 + n.toNat) :
    decode (.hcmd w) = .instr (.hStep n) := by
  have hcmd : w.extractLsb' 13 3 = 0b101#3 := extractLsb'_eq_of_toNat (by simp; omega)
  have hcount : w.extractLsb' 0 13 = n := extractLsb'_eq_of_toNat (by omega)
  simp [decode, decodeHcmd, hcmd, hcount, hn]

theorem decode_hReserved110 {w : Hcmd} (h : w.toNat / 2 ^ 13 = 0b110) :
    decode (.hcmd w) = .instr (.hReserved110 (w.extractLsb' 0 13)) := by
  have hcmd : w.extractLsb' 13 3 = 0b110#3 := extractLsb'_eq_of_toNat (by simp; omega)
  simp [decode, decodeHcmd, hcmd]

theorem decode_hReserved111 {w : Hcmd} (h : w.toNat / 2 ^ 13 = 0b111) :
    decode (.hcmd w) = .instr (.hReserved111 (w.extractLsb' 0 13)) := by
  have hcmd : w.extractLsb' 13 3 = 0b111#3 := extractLsb'_eq_of_toNat (by simp; omega)
  simp [decode, decodeHcmd, hcmd]

/-! Both ways -/

/-- 30 R101 to R103: the word of a well-formed instruction decodes to it. -/
theorem decode_encode {i : Instr} (hi : i.wellFormed = true) : decode (encode i) = .instr i := by
  cases i with
  | aConsume w f n => revert w f n; decide
  | hSetCfg v p r => exact decode_hSetCfg (ofNat16_toNat _ (by have := v.toNat_le; omega))
  | hPushOp b => exact decode_hPushOp (ofNat16_toNat _ (by omega))
  | hPushWb x => exact decode_hPushWb (ofNat16_toNat _ (by have := x.toNat_le; omega))
  | hStep n => exact decode_hStep (by simpa [Instr.wellFormed] using hi) (ofNat16_toNat _ (by omega))
  | mReserved | hReserved110 | hReserved111 => cases hi
  | _ => decide

/-- Two well-formed instructions never share a word. -/
theorem encode_injective_of_wellFormed {i j : Instr} (hi : i.wellFormed = true) (hj : j.wellFormed = true)
    (h : encode i = encode j) : i = j := by
  have hd := decode_encode hi
  rw [h, decode_encode hj] at hd
  exact (Decoded.instr.inj hd).symm

/-- Settles O1: a script line by the number of its word, every other row by its one word. -/
theorem decodeOfEncodeIsTheInstruction : Obligations.DecodeOfEncodeIsTheInstruction := fun _ => decode_encode

/-- Settles O2: the listed bits and the zeros make up the word. -/
theorem encodeOfADecodedScriptWordIsTheWord : Obligations.EncodeOfADecodedScriptWordIsTheWord :=
  fun _ _ => encode_of_decode_hcmd

/-- Settles O9: the words are those of the table's rows. -/
theorem wordsOfTheSpecDecode : Obligations.WordsOfTheSpecDecode := by
  unfold Obligations.WordsOfTheSpecDecode
  decide

/-- Settles O4: the 256 words of MSEL and the 16 of ASEL, each by its value. -/
theorem selectorRowsByMaskAndMatch : Obligations.SelectorRowsByMaskAndMatch := by
  constructor
  · decide
  · decide

/-! The words that are no script line (30 R103, R104) -/

theorem decodePlain_eq_reject {z : Bool} {i : Instr} : (∃ why, decodePlain z i = .reject why) ↔ z = false := by
  cases z <;> simp [decodePlain]

/-- 30 R103: within each command, the words with an unlisted bit are those above the listed ones. -/
theorem decode_eq_reject_iff (w : Hcmd) : (∃ why, decode (.hcmd w) = .reject why) ↔
    (0x0000 < w.toNat ∧ w.toNat < 0x2000) ∨ (0x2000 < w.toNat ∧ w.toNat < 0x4000) ∨
    (0x4200 ≤ w.toNat ∧ w.toNat < 0x6000) ∨ (0x6100 ≤ w.toNat ∧ w.toNat < 0x8000) ∨
    (0x8002 ≤ w.toNat ∧ w.toNat < 0xA000) ∨ w.toNat = 0xA000 := by
  have hlt := w.isLt
  simp only [decode, decodeHcmd]
  split_ifs <;>
    simp only [decodePlain_eq_reject, Decoded.reject.injEq, exists_false, exists_eq', beq_eq_false_iff_ne, ne_eq,
      ← BitVec.toNat_inj, extractLsb'_toNat_eq, BitVec.toNat_ofNat, true_iff, false_iff] at *
  all_goals omega

/-- Settles O6: the rejected words by their ranges, and the step by the decoder's answer. -/
theorem wordsWithUnlistedBitsAndStepZeroAreRejected :
    Obligations.WordsWithUnlistedBitsAndStepZeroAreRejected := by
  refine ⟨decode_eq_reject_iff, fun s w why hp hhead hd => ?_⟩
  obtain ⟨rest, hscript⟩ := List.head?_eq_some_iff.1 hhead
  exact step_of_host_reject hp hscript hd

/-- Settles O7: the command is the word's number by 2^13, and the meaning of both rows refuses. -/
theorem reservedCommandsAreRefused : Obligations.ReservedCommandsAreRefused :=
  ⟨fun w hlow hhigh => decode_hReserved110 (by omega),
    fun w hlow => decode_hReserved111 (by have := w.isLt; omega), fun _ _ => ⟨rfl, rfl⟩⟩

end Sys2Proof.Laws
end

