-- ==== Sys2Proof/Proofs/Fields.lean ====
section
/-! The fields of the record and of the operand byte by the numbers of their words (spec/30_encoding.md R90, R98,
R105), and the real value of an operand byte (R91, R93). -/

namespace Sys2Proof.Laws

open Sys2Proof.Machine

/-! The packed record (30 R98) -/

theorem toNat_append_eq_add {m n : Nat} (x : BitVec m) (y : BitVec n) :
    (x ++ y).toNat = x.toNat * 2 ^ n + y.toNat := by
  rw [BitVec.toNat_append, Nat.shiftLeft_eq, Nat.mul_comm, Nat.two_pow_add_eq_or_of_lt y.isLt]

theorem pack_toNat (r : IResult) :
    r.pack.toNat = r.mag.toNat * 2 ^ 14 + r.exp.toNat * 2 ^ 10 + r.fsign.toNat * 2 ^ 9 + r.wsign.toNat * 2 ^ 8
      + r.mu.toNat * 2 ^ 4 + r.prec.toNat := by
  simp only [IResult.pack, toNat_append_eq_add, BitVec.toNat_ofBool]
  omega

/-- Each field stands where its weight in the number puts it. -/
theorem unpack_pack (r : IResult) : IResult.unpack r.pack = r := by
  have h := pack_toNat r
  have hf := r.fsign.toNat_le
  have hw := r.wsign.toNat_le
  have hmag : r.pack.extractLsb' 14 19 = r.mag := extractLsb'_eq_of_toNat (by omega)
  have hexp : r.pack.extractLsb' 10 4 = r.exp := extractLsb'_eq_of_toNat (by omega)
  have hfsign : r.pack.getLsbD 9 = r.fsign := getLsbD_eq_of_toNat (by omega)
  have hwsign : r.pack.getLsbD 8 = r.wsign := getLsbD_eq_of_toNat (by omega)
  have hmu : r.pack.extractLsb' 4 4 = r.mu := extractLsb'_eq_of_toNat (by omega)
  have hprec : r.pack.extractLsb' 0 4 = r.prec := extractLsb'_eq_of_toNat (by omega)
  rw [IResult.unpack, hmag, hexp, hfsign, hwsign, hmu, hprec]

/-- The six fields cover all 33 bits. -/
theorem pack_unpack (w : BitVec 33) : (IResult.unpack w).pack = w := by
  apply BitVec.eq_of_toNat_eq
  simp only [pack_toNat, IResult.unpack, extractLsb'_toNat_eq, BitVec.getLsbD, Nat.toNat_testBit]
  omega

/-- Settles O10: the layout is one number, and its quotients are the fields. -/
theorem recordLayoutRoundTrip : Obligations.RecordLayoutRoundTrip :=
  ⟨fun r => ⟨unpack_pack r, pack_toNat r⟩, pack_unpack⟩

/-! The operand byte (30 R90, R105) -/

theorem operand_toNat (b : OpByte) :
    b.toNat = 128 * (decodeOperand b).sign.toNat + 8 * (decodeOperand b).exponent.toNat
      + (decodeOperand b).mantissa.toNat := by
  simp only [decodeOperand, extractLsb'_toNat_eq, BitVec.getLsbD, Nat.toNat_testBit]
  omega

/-- Settles O11: the fields are quotients of the byte, and the unit has its leading one above three bits. -/
theorem operandFieldsAndMantissaUnit : Obligations.OperandFieldsAndMantissaUnit :=
  fun b => ⟨operand_toNat b, Safety.mantissaUnit_toNat _⟩

/-- The magnitude of an operand byte on the scale 2^-10, an integer (30 R91). -/
def scaledMagnitude (b : OpByte) : Nat :=
  (8 + (decodeOperand b).mantissa.toNat) * 2 ^ (decodeOperand b).exponent.toNat

/-- 30 R91: the sign drops out, and the bias and the three fraction bits are the scale. -/
theorem abs_floatValue (b : OpByte) : |floatValue b| = (scaledMagnitude b : Rat) / 1024 := by
  have hsign : |if (decodeOperand b).sign then (-1 : Rat) else 1| = 1 := by split <;> simp
  have hpos : (0 : Rat) ≤ 1 + ((decodeOperand b).mantissa.toNat : Rat) / 8 := by positivity
  have hscale : (2 : Rat) ^ (((decodeOperand b).exponent.toNat : Int) - (Config.bias : Nat))
      = 2 ^ (decodeOperand b).exponent.toNat / 128 := by
    rw [zpow_sub₀ two_ne_zero, zpow_natCast, zpow_natCast]
    norm_num [Config.bias]
  rw [floatValue, abs_mul, abs_mul, hsign, abs_of_nonneg hpos, hscale, abs_of_nonneg (by positivity), scaledMagnitude]
  push_cast
  ring

theorem scaledMagnitude_bounds (b : OpByte) : 8 ≤ scaledMagnitude b ∧ scaledMagnitude b ≤ 491520 := by
  have hm := (decodeOperand b).mantissa.isLt
  have he : 2 ^ (decodeOperand b).exponent.toNat ≤ 2 ^ 15 := Nat.pow_le_pow_right two_pos (by omega)
  exact ⟨(Nat.mul_le_mul (by omega) Nat.one_le_two_pow : 8 * 1 ≤ _),
    (Nat.mul_le_mul (by omega) he : _ ≤ 15 * 2 ^ 15)⟩

theorem scaledMagnitude_eq_least (b : OpByte) : scaledMagnitude b = 8 ↔ b = 0x00#8 ∨ b = 0x80#8 := by
  revert b; decide

theorem scaledMagnitude_eq_greatest (b : OpByte) : scaledMagnitude b = 491520 ↔ b = 0x7F#8 ∨ b = 0xFF#8 := by
  revert b; decide

/-- Settles O12: on the scale 2^-10 the least magnitude is 8 and the greatest 15 * 2^15. -/
theorem noOperandIsZero : Obligations.NoOperandIsZero := by
  intro b
  obtain ⟨hlow, hhigh⟩ := scaledMagnitude_bounds b
  have hlow' : (8 : Rat) ≤ scaledMagnitude b := by exact_mod_cast hlow
  have hhigh' : (scaledMagnitude b : Rat) ≤ 491520 := by exact_mod_cast hhigh
  have habs := abs_floatValue b
  refine ⟨abs_pos.1 (by rw [habs]; positivity), by rw [habs]; linarith, by rw [habs]; linarith, ?_, ?_⟩
  · rw [habs, ← scaledMagnitude_eq_least, div_eq_div_iff (by norm_num) (by norm_num)]
    norm_cast; omega
  · rw [habs, ← scaledMagnitude_eq_greatest, div_eq_iff (by norm_num)]
    norm_cast

end Sys2Proof.Laws
end

