-- ==== Sys2Proof/Proofs/WeightStreams.lean ====
section
/-! Weight streams as two's complement (spec/30_encoding.md R95): the stream's bits are a number, and the last one
weighs negative. -/

namespace Sys2Proof.Machine

theorem bitsValue_eq_sum (bits : List Bool) :
    (bitsValue bits : Int) = ∑ i ∈ Finset.range bits.length, ((bits.getD i false).toNat : Int) * 2 ^ i := by
  induction bits with
  | nil => rfl
  | cons x bits ih =>
    rw [List.length_cons, Finset.sum_range_succ']
    simp only [bitsValue, Nat.cast_add, Nat.cast_mul, ih, Finset.mul_sum, List.getD_cons_succ, List.getD_cons_zero,
      pow_succ, pow_zero]
    rw [add_comm, mul_one]
    congr 1
    exact Finset.sum_congr rfl fun i _ => by push_cast; ring

theorem bitsValue_append (bits : List Bool) (x : Bool) :
    bitsValue (bits ++ [x]) = bitsValue bits + x.toNat * 2 ^ bits.length := by
  induction bits with
  | nil => simp [bitsValue]
  | cons y bits ih =>
    simp only [List.cons_append, bitsValue, ih, List.length_cons, pow_succ]
    ring

/-- 30 R95: the range of a stream of `k + 1` bits. -/
theorem weightValue_bounds (bits : List Bool) (x : Bool) :
    -2 ^ bits.length ≤ weightValue (bits ++ [x]) ∧ weightValue (bits ++ [x]) ≤ 2 ^ bits.length - 1 := by
  have h : (bitsValue bits : Int) < 2 ^ bits.length := by exact_mod_cast bitsValue_lt bits
  rw [weightValue_append]
  cases x with
  | false => simp only [Bool.toNat_false, Nat.cast_zero, zero_mul]; omega
  | true => simp only [Bool.toNat_true, Nat.cast_one, one_mul]; omega

/-- 70 R243: one more copy of the sign bit. -/
theorem weightValue_append_sign (bits : List Bool) (x : Bool) :
    weightValue (bits ++ [x] ++ [x]) = weightValue (bits ++ [x]) := by
  rw [weightValue_append, weightValue_append, bitsValue_append, List.length_append, List.length_singleton, pow_succ]
  push_cast
  ring

theorem weightValue_append_replicate (bits : List Bool) (x : Bool) (k : Nat) :
    weightValue (bits ++ [x] ++ List.replicate k x) = weightValue (bits ++ [x]) := by
  induction k generalizing bits with
  | zero => rw [List.replicate_zero, List.append_nil]
  | succ k ih =>
    have h := ih (bits ++ [x])
    rw [weightValue_append_sign, List.append_assoc] at h
    exact h

/-- Below another bit, a bit counts once and the rest twice. -/
theorem weightValue_cons (x : Bool) {bits : List Bool} (h : bits ≠ []) :
    weightValue (x :: bits) = x.toNat + 2 * weightValue bits := by
  cases bits with
  | nil => exact absurd rfl h
  | cons y rest => rfl

/-- The lowest bit of an integer, as a number. -/
theorem toNat_emod_two (w : Int) : ((w % 2 == 1).toNat : Int) = w % 2 := by
  rcases Int.emod_two_eq w with h | h <;> simp [h]

/-- 30 R95: the stream of an integer in range denotes it. -/
theorem weightValue_weightBits {k : Nat} {w : Int} (hlow : -2 ^ k ≤ w) (hhigh : w ≤ 2 ^ k - 1) :
    weightValue (weightBits (k + 1) w) = w := by
  induction k generalizing w with
  | zero =>
    have h : w = -1 ∨ w = 0 := by omega
    rcases h with rfl | rfl <;> rfl
  | succ k ih =>
    rw [pow_succ] at hlow hhigh
    have hne : weightBits (k + 1) (w / 2) ≠ [] := List.ne_nil_of_length_eq_add_one (weightBits_length _ _)
    rw [weightBits, weightValue_cons _ hne, ih (by omega) (by omega), toNat_emod_two]
    omega

/-- The residue modulo `2^(p+1)` is the lowest bit below the residue of the half. -/
theorem toNat_emod_two_pow_succ (p : Nat) (w : Int) :
    (w % 2 ^ (p + 1)).toNat = 2 * (w / 2 % 2 ^ p).toNat + (w % 2 == 1).toNat := by
  have hpos : (0 : Int) < 2 ^ p := by positivity
  have hsplit : w % 2 ^ (p + 1) = 2 * (w / 2 % 2 ^ p) + w % 2 := by
    refine ((Int.ediv_emod_unique (q := w / 2 / 2 ^ p) (by positivity)).2 ⟨?_, by omega, ?_⟩).2
    · have hhalf := Int.mul_ediv_add_emod (w / 2) (2 ^ p)
      rw [pow_succ]
      linarith [Int.mul_ediv_add_emod w 2]
    · have hlt := Int.emod_lt_of_pos (w / 2) hpos
      rw [pow_succ]
      omega
  have hbit := toNat_emod_two w
  have hnonneg := Int.emod_nonneg (w / 2) hpos.ne'
  omega

/-- 30 R95: bit `i` of the stream is bit `i` of `w mod 2^p`. -/
theorem weightBits_getD {p i : Nat} (w : Int) (h : i < p) :
    (weightBits p w).getD i false = (w % 2 ^ p).toNat.testBit i := by
  induction p generalizing w i with
  | zero => omega
  | succ p ih =>
    rw [toNat_emod_two_pow_succ, weightBits]
    cases i with
    | zero => cases w % 2 == 1 <;> simp [Nat.testBit_zero]
    | succ i =>
      have hlt := (w % 2 == 1).toNat_lt
      rw [List.getD_cons_succ, ih _ (by omega), Nat.testBit_succ]
      congr 1
      omega

/-- Settles O13: the sum, the range and the sign copies from the value of a stream and one more bit, the converse by
halving the integer. -/
theorem weightStreamsAreTwosComplement : Obligations.WeightStreamsAreTwosComplement :=
  ⟨fun bits x => ⟨by rw [weightValue_append, bitsValue_eq_sum], weightValue_bounds bits x⟩,
    fun _ w hlow hhigh => ⟨weightBits_length _ w, weightValue_weightBits hlow hhigh, fun _ => weightBits_getD w⟩,
    weightValue_append_replicate⟩

end Sys2Proof.Machine
end

