-- ==== Sys2Proof/Proofs/SelectorBits.lean ====
section
/-! The bits of the selector words (spec/30_encoding.md R99, R100, R102). Two bits of MSEL are those of the rules only
under the invariant (log entries 6 and 7). -/

namespace Sys2Proof.Machine

open Sys2Proof.Laws Sys2Proof.Safety

/-- MSEL as a number: the code of the state and six flags below it. -/
theorem mselWord_toNat (p : Params) (i : Inputs) (b : Block) :
    (mselWord p i b).toNat = b.mstate.code.toNat * 64 + i.valid.toNat * 32 + (!b.opq.isEmpty).toNat * 16
      + (precisionLegal i.precision).toNat * 8 + (!b.wbq.isEmpty).toNat * 4 + b.lastNext.toNat * 2
      + (b.resqFull p).toNat := by
  simp only [mselWord, toNat_append_eq_add, BitVec.toNat_ofBool]
  omega

theorem mselWord_bits (p : Params) (i : Inputs) (b : Block) :
    (mselWord p i b).extractLsb' 6 2 = b.mstate.code ∧ (mselWord p i b).getLsbD 5 = i.valid ∧
    (mselWord p i b).getLsbD 4 = !b.opq.isEmpty ∧ (mselWord p i b).getLsbD 3 = precisionLegal i.precision ∧
    (mselWord p i b).getLsbD 2 = !b.wbq.isEmpty ∧ (mselWord p i b).getLsbD 1 = b.lastNext ∧
    (mselWord p i b).getLsbD 0 = b.resqFull p := by
  have h := mselWord_toNat p i b
  have hvalid := i.valid.toNat_le
  have hop := (!b.opq.isEmpty).toNat_le
  have hprec := (precisionLegal i.precision).toNat_le
  have hwb := (!b.wbq.isEmpty).toNat_le
  have hlast := b.lastNext.toNat_le
  have hfull := (b.resqFull p).toNat_le
  refine ⟨extractLsb'_eq_of_toNat ?_, getLsbD_eq_of_toNat ?_, getLsbD_eq_of_toNat ?_, getLsbD_eq_of_toNat ?_,
    getLsbD_eq_of_toNat ?_, getLsbD_eq_of_toNat ?_, getLsbD_eq_of_toNat ?_⟩ <;> omega

theorem aselWord_of_nil {b : Block} (i : Inputs) (hq : b.resq = []) : aselWord i b = 0b0000#4 := by
  simp only [aselWord, hq]

theorem aselWord_bits_of_cons {b : Block} {r : IResult} {rest : List IResult} (i : Inputs) (hq : b.resq = r :: rest) :
    (aselWord i b).getLsbD 3 = true ∧ (aselWord i b).getLsbD 2 = r.wsign ∧ (aselWord i b).getLsbD 1 = r.fsign ∧
    (aselWord i b).getLsbD 0 = decide (r.exp.toNat < i.refExp.toNat) := by
  simp only [aselWord, hq]
  generalize r.wsign = w
  generalize r.fsign = f
  generalize decide (r.exp.toNat < i.refExp.toNat) = n
  revert w f n; decide

/-- In COMPUTE the invariant shuts out a counter above `prec - 1` (log entry 6). -/
theorem lastNext_iff {p : Params} {b : Block} (h : BlockInv p b) :
    b.lastNext = true ↔ (b.cnt.toNat : Int) = (b.prec.toNat : Int) - 1 := by
  by_cases hm : b.mstate = .compute
  · obtain ⟨hcnt, -⟩ := h.of_compute hm
    simp only [Block.lastNext, hm, if_true, Block.magnitudeNext, Bool.not_eq_true', decide_eq_false_iff_not]
    omega
  · simp only [Block.lastNext, hm, if_false, decide_eq_true_iff]
    omega

/-- Within its capacity a channel is full at its capacity (log entry 7). -/
theorem resqFull_iff {p : Params} {b : Block} (h : b.resq.length ≤ p.resqDepth) :
    b.resqFull p = true ↔ b.resq.length = p.resqDepth := by
  simp only [Block.resqFull, chanFull, decide_eq_true_iff]
  omega

/-- Settles O3: each bit by its flag, and the flags by what they test. -/
theorem selectorWordsHoldTheirBits : Obligations.SelectorWordsHoldTheirBits := by
  intro p i b hinv hfit
  obtain ⟨hcode, hvalid, hop, hprec, hwb, hlast, hfull⟩ := mselWord_bits p i b
  refine ⟨?code, hvalid, by rw [hop]; simp, by rw [hprec, precisionLegal_iff], by rw [hwb]; simp,
    by rw [hlast, lastNext_iff hinv], by rw [hfull, resqFull_iff hfit], ?record, fun r rest hq => ?fields⟩
  case code => rw [hcode]; cases b.mstate <;> rfl
  case record =>
    cases hq : b.resq with
    | nil => simp [aselWord_of_nil i hq]
    | cons r rest => simp [(aselWord_bits_of_cons i hq).1]
  case fields =>
    obtain ⟨-, hw, hf, hn⟩ := aselWord_bits_of_cons i hq
    exact ⟨hw, hf, by rw [hn, decide_eq_true_iff]⟩

end Sys2Proof.Machine
end

