-- ==== Sys2Proof/Proofs/ScriptWords.lean ====
section
/-! The words of script lines and pseudo-lines by their numbers (spec/30_encoding.md R103, R107). -/

namespace Sys2Proof.Machine

open Sys2Proof.Laws

theorem hcmdOf_of_encode {i : Instr} {w : Hcmd} (h : encode i = .hcmd w) : hcmdOf i = some w := by
  simp only [hcmdOf, h]

theorem assemble_nil : assemble [] = [] := rfl

theorem assemble_cons {i : Instr} {w : Hcmd} (rest : List Instr) (h : encode i = .hcmd w) :
    assemble (i :: rest) = w :: assemble rest := by
  rw [assemble, List.filterMap_cons_some (hcmdOf_of_encode h), assemble]

theorem assemble_append (l m : List Instr) : assemble (l ++ m) = assemble l ++ assemble m :=
  List.filterMap_append

/-- The word of `H.PUSH_WB x` (30 R103). -/
def pushWbWord (x : Bool) : Hcmd := BitVec.ofNat 16 (0x8000 + x.toNat)

theorem assemble_linesOfBits (bits : List Bool) : assemble (linesOfBits bits) = bits.map pushWbWord := by
  rw [assemble, linesOfBits, List.filterMap_map]
  exact congrFun List.filterMap_eq_map bits

/-- 30 R95: the stream as the list of the bits of `w mod 2^p`. -/
theorem weightBits_eq_map (p : Nat) (w : Int) :
    weightBits p w = (List.range p).map (w % 2 ^ p).toNat.testBit := by
  refine List.ext_getElem (by simp) fun i hi _ => ?_
  rw [weightBits_length] at hi
  rw [List.getElem_map, List.getElem_range, ← weightBits_getD w hi, List.getD_eq_getElem]

/-! The pseudo-lines (30 R107) -/

theorem linesOfWeight_of_inRange {p : Nat} {w : Int} (h : WeightInRange p w) :
    linesOfWeight p w = some (linesOfBits (weightBits p w)) := if_pos h

theorem linesOfWeight_eq_none {p : Nat} {w : Int} (h : ¬ WeightInRange p w) : linesOfWeight p w = none := if_neg h

/-- The word of the `STEP p+2` that ends a `MAC` line: `p + 2` does not wrap. -/
theorem encode_hStep_mac (p : BitVec 4) :
    encode (.hStep (p.setWidth 13 + 2#13)) = .hcmd (BitVec.ofNat 16 (0xA000 + (p.toNat + 2))) := by
  have h : (p.setWidth 13 + 2#13).toNat = p.toNat + 2 := by
    rw [BitVec.toNat_add, BitVec.toNat_setWidth, BitVec.toNat_ofNat]
    omega
  rw [encode, hcmdWord, h]

theorem assemble_expandLine_wbits {p : BitVec 4} {w : Int} (h : WeightInRange p.toNat w) :
    (expandLine (some p) (.wbits w)).map assemble = some ((weightBits p.toNat w).map pushWbWord) := by
  simp only [expandLine, Option.bind_some, linesOfWeight_of_inRange h, Option.map_some, assemble_linesOfBits]

theorem assemble_expandLine_mac {p : BitVec 4} {w : Int} (b : OpByte) (h : WeightInRange p.toNat w) :
    (expandLine (some p) (.mac b w)).map assemble =
      some (BitVec.ofNat 16 (0x6000 + b.toNat) :: (weightBits p.toNat w).map pushWbWord
        ++ [BitVec.ofNat 16 (0xA000 + (p.toNat + 2))]) := by
  have hop : encode (.hPushOp b) = .hcmd (BitVec.ofNat 16 (0x6000 + b.toNat)) := rfl
  simp only [expandLine, linesOfMac, Option.bind_some, linesOfWeight_of_inRange h, Option.map_some, List.cons_append,
    assemble_cons _ hop, assemble_append, assemble_linesOfBits, assemble_cons _ (encode_hStep_mac p), assemble_nil]

theorem expandLine_of_not_inRange {p : BitVec 4} {w : Int} (b : OpByte) (h : ¬ WeightInRange p.toNat w) :
    expandLine (some p) (.wbits w) = none ∧ expandLine (some p) (.mac b w) = none := by
  simp only [expandLine, linesOfMac, Option.bind_some, linesOfWeight_eq_none h, Option.map_none, and_self]

/-- Settles O5: the lines by the encoder's numbers, the pseudo-lines by the stream that the weight has at `p` bits. -/
theorem scriptWordsByNumber : Obligations.ScriptWordsByNumber := by
  refine ⟨decode_encode (i := .hReset) rfl, decode_encode (i := .hAccClear) rfl,
    fun v p r => decode_encode (i := .hSetCfg v p r) rfl, fun b => decode_encode (i := .hPushOp b) rfl,
    fun x => decode_encode (i := .hPushWb x) rfl,
    fun n hn => decode_encode (i := .hStep n) (by simpa [Instr.wellFormed] using hn),
    fun prec x xs => congrArg some (assemble_linesOfBits (x :: xs)), ?weight, fun _ _ => ⟨rfl, rfl⟩⟩
  case weight =>
    rintro p b w bits hbits
    obtain rfl : (weightBits p.toNat w).map pushWbWord = bits := by
      rw [hbits, weightBits_eq_map, List.map_map]; rfl
    refine ⟨fun hp hlow hhigh => ?_, fun hout => expandLine_of_not_inRange b ?_⟩
    · have hin : WeightInRange p.toNat w := ⟨hp, hlow, by omega⟩
      exact ⟨assemble_expandLine_wbits hin, assemble_expandLine_mac b hin⟩
    · rintro ⟨hp, hlow, hhigh⟩
      omega

end Sys2Proof.Machine
end

