-- ==== Sys2Proof/Proofs/ScriptRuns.lean ====
section
/-! A well-formed script on unbounded input channels never stops (spec/30_encoding.md R106). `RunsScript` is kept by
every step; what sets no error bit is a second property of one state, kept along with it (60_exceptions.md R200,
R201). -/

namespace Sys2Proof.Safety

open Sys2Proof.Machine Sys2Proof.Laws

/-! One step -/

/-- Only host moves have a place in a script, and each has a word (30 R106). -/
theorem exists_encode_of_isHostMove {i : Instr} (h : i.isHostMove = true) : ∃ w, encode i = .hcmd w := by
  cases i with
  | hReset | hAccClear | hSetCfg | hPushOp | hPushWb | hStep | hReserved110 | hReserved111 => exact ⟨_, rfl⟩
  | _ => cases h

theorem scriptWellFormed_cons {configured : Bool} {i : Instr} {rest : List Instr}
    (h : scriptWellFormed configured (i :: rest) = true) :
    i.isHostMove = true ∧ i.wellFormed = true ∧ steppingUndriven configured i = false ∧
      scriptWellFormed (configuredAfter configured i) rest = true := by
  simpa [scriptWellFormed, and_assoc] using h

/-- Between steps every well-formed line is admitted when no channel can be full and a CFG precedes a step. -/
theorem exec_line {s : State} {i : Instr} (hp : s.phase = .host) (ho : s.params.opqCap = none)
    (hw : s.params.wbqCap = none) (hhost : i.isHostMove = true) (hwf : i.wellFormed = true)
    (hdriven : steppingUndriven s.configured i = false) :
    ∃ t, exec i s = .next t ∧ t.configured = configuredAfter s.configured i ∧ t.script = s.script := by
  cases i with
  | hReset => exact ⟨_, hostMove_of_host _ hp, rfl, rfl⟩
  | hAccClear => exact ⟨_, hostMove_of_host _ hp, rfl, rfl⟩
  | hSetCfg v p r => exact ⟨_, hostMove_of_host _ hp, rfl, rfl⟩
  | hPushOp w =>
    have hroom : s.block.opFull s.params = false := chanFull_eq_false _ ho
    exact ⟨_, (hostMove_of_host _ hp).trans (if_neg (by simp [hroom])), rfl, rfl⟩
  | hPushWb x =>
    have hroom : s.block.wbFull s.params = false := chanFull_eq_false _ hw
    exact ⟨_, (hostMove_of_host _ hp).trans (if_neg (by simp [hroom])), rfl, rfl⟩
  | hStep n =>
    have hn : n ≠ 0#13 := by simpa [Instr.wellFormed] using hwf
    have hc : s.configured = true := by simpa [steppingUndriven] using hdriven
    exact ⟨_, (hostMove_of_host _ hp).trans ((if_neg hn).trans (if_pos hc)), rfl, rfl⟩
  | hReserved110 | hReserved111 => cases hwf
  | _ => cases hhost

/-- 41 R152: the records of the invariant have a precision, so the accumulator phase refuses none. -/
theorem exists_accumulatorPhase_eq_some {p : Params} {b : Block} (h : BlockInv p b) (i : Inputs) :
    ∃ b', accumulatorPhase p i b = some b' := by
  cases hq : b.resq with
  | nil => exact ⟨_, if_pos (by rw [hq, List.isEmpty_nil])⟩
  | cons r rest =>
    obtain ⟨hprec, -⟩ := h.records r (by rw [hq]; exact List.mem_cons_self)
    have hne : r.prec ≠ 0#4 := by rintro hzero; simp [hzero] at hprec
    exact ⟨_, (if_neg (by simp [hq])).trans (Block.consume_of_cons p i.refExp hq hne)⟩

section
variable {s t : State} {lines rest : List Instr}

/-- What is left to show of a next state, once the step is known: the script it still has to run. -/
theorem RunsScript.of_step (h : RunsScript s lines) (ht : step s = .next t)
    (hwf : scriptWellFormed t.configured rest = true) (hscript : t.script = assemble rest) : RunsScript t rest := by
  have hcases := stepsTo_of_step ht
  exact ⟨inv_of_stepsTo hcases h.inv, hcases.params_eq ▸ h.opqUnbounded, hcases.params_eq ▸ h.wbqUnbounded, hwf,
    hscript⟩

/-- A script with a line in front: its word is the next one. -/
theorem RunsScript.script_cons {i : Instr} (h : RunsScript s (i :: rest)) :
    ∃ w, encode i = .hcmd w ∧ decode (.hcmd w) = .instr i ∧ s.script = w :: assemble rest := by
  obtain ⟨hhost, hwf, -, -⟩ := scriptWellFormed_cons h.wellFormed
  obtain ⟨w, hw⟩ := exists_encode_of_isHostMove hhost
  exact ⟨w, hw, hw ▸ decode_encode hwf, by rw [h.script, assemble_cons rest hw]⟩

/-- 30 R106: a step answers a next state, which has the same lines to run or all but the first. -/
theorem RunsScript.exists_next (h : RunsScript s lines) :
    ∃ (t : State) (rest : List Instr), step s = .next t ∧ rest <:+ lines ∧ RunsScript t rest := by
  cases hp : s.phase with
  | mult more =>
    have ht := step_of_mult hp
    exact ⟨_, lines, ht, List.suffix_rfl, h.of_step ht h.wellFormed h.script⟩
  | accum more =>
    obtain ⟨b, hb⟩ := exists_accumulatorPhase_eq_some h.inv.block s.inputs
    have ht := step_of_accum hp
    rw [hb] at ht
    exact ⟨_, lines, ht, List.suffix_rfl, h.of_step ht h.wellFormed h.script⟩
  | host =>
    cases lines with
    | nil => exact ⟨s, [], step_of_host_script_nil hp h.script, List.suffix_rfl, h⟩
    | cons i rest =>
      obtain ⟨hhost, hwf, hdriven, hrest⟩ := scriptWellFormed_cons h.wellFormed
      obtain ⟨w, -, hd, hscript⟩ := h.script_cons
      obtain ⟨t, ht, hconfigured, htscript⟩ := exec_line (s := { s with script := assemble rest }) hp
        h.opqUnbounded h.wbqUnbounded hhost hwf hdriven
      rw [← step_eq_exec_of_host hp hscript hd] at ht
      exact ⟨t, rest, ht, List.suffix_cons i rest, h.of_step ht (hconfigured ▸ hrest) htscript⟩

/-! Runs -/

theorem RunsScript.of_run (h : RunsScript s lines) {n : Nat} (ht : run n s = .next t) :
    ∃ rest, RunsScript t rest := by
  induction n generalizing s lines with
  | zero => cases ht; exact ⟨lines, h⟩
  | succ n ih =>
    obtain ⟨u, rest, hu, -, hrest⟩ := h.exists_next
    rw [run, hu] at ht
    exact ih hrest ht

/-- Nothing on the way can set an error bit: no overflow is checked, and the precision that a step will sample is
legal, as is that of every CFG line still to come (60 R200, R201). Before the first CFG no step samples it. -/
structure ErrorFree (s : State) (lines : List Instr) : Prop where
  noError : faulted s.block = false
  unchecked : s.params.ovfCheck = false
  driven : (s.phase = .host → s.configured = true) → 1 ≤ s.inputs.precision.toNat
  lines : ∀ (v : Bool) (p r : BitVec 4), Instr.hSetCfg v p r ∈ lines → 1 ≤ p.toNat

/-- The CFG that a step meets is a line of the script. -/
theorem RunsScript.hSetCfg_mem (h : RunsScript s lines) {v : Bool} {p r : BitVec 4} (hp : s.phase = .host)
    (hw : currentWord s = some (encode (.hSetCfg v p r))) : .hSetCfg v p r ∈ lines := by
  cases lines with
  | nil => simp only [currentWord, hp, h.script, assemble_nil, List.head?_nil, Option.map_none, reduceCtorEq] at hw
  | cons i rest =>
    obtain ⟨-, hwf, -, -⟩ := scriptWellFormed_cons h.wellFormed
    obtain ⟨w, -, hd, hscript⟩ := h.script_cons
    rw [currentWord_of_host hp hscript hd] at hw
    rw [encode_injective_of_wellFormed hwf rfl (Option.some.inj hw)]
    exact List.mem_cons_self

theorem faulted_congr {b c : Block} (h : c.err = b.err) : faulted c = faulted b := by
  rw [faulted, faulted, h]

/-- 60 R200: with a legal precision the multiplier phase rejects nothing. -/
theorem multiplierPhase_err_of_legal {p : Params} {i : Inputs} (b : Block) (h : 1 ≤ i.precision.toNat) :
    (multiplierPhase p i b).err = b.err := by
  have hlegal : precisionLegal i.precision = true := (precisionLegal_iff _).2 ⟨h, by omega⟩
  rw [multiplierPhase_err, if_neg (by simp [hlegal])]

/-- 60 R201: unchecked, an overflow sets no bit. -/
theorem accumulate_err_of_unchecked {p : Params} (v3 : Int) (b : Block) (h : p.ovfCheck = false) :
    (Block.accumulate p v3 b).err = b.err := by
  rw [Block.accumulate_err, h]; rfl

theorem ErrorFree.of_stepsTo (h : ErrorFree s lines) (hs : RunsScript s lines) (ht : StepsTo s t)
    (hrest : rest <:+ lines) : ErrorFree t rest := by
  obtain ⟨hnoError, hunchecked, hdriven, hlines⟩ := h
  have hlines' := fun v p r hm => hlines v p r (hrest.subset hm)
  have hsampled : ∀ more, s.phase = .mult more ∨ s.phase = .accum more → 1 ≤ s.inputs.precision.toNat := by
    rintro more (hp | hp) <;> exact hdriven (by simp [hp])
  cases ht with
  | multiplier more hp =>
    have hprec := hsampled more (.inl hp)
    exact ⟨(faulted_congr (multiplierPhase_err_of_legal _ hprec)).trans hnoError, hunchecked, fun _ => hprec,
      hlines'⟩
  | noResult more hp => exact ⟨hnoError, hunchecked, fun _ => hsampled more (.inr hp), hlines'⟩
  | consume more r _ hp =>
    exact ⟨(faulted_congr (accumulate_err_of_unchecked _ _ hunchecked)).trans hnoError, hunchecked,
      fun _ => hsampled more (.inr hp), hlines'⟩
  | reset hp => exact ⟨rfl, hunchecked, fun hc => absurd (hc hp) Bool.false_ne_true, hlines'⟩
  | setCfg v p r hp hw => exact ⟨hnoError, hunchecked, fun _ => hlines v p r (hs.hSetCfg_mem hp hw), hlines'⟩
  | stepMove n _ _ _ hc => exact ⟨hnoError, hunchecked, fun _ => hdriven fun _ => hc, hlines'⟩
  | scriptEnd | accClear | pushOp | pushWb => exact ⟨hnoError, hunchecked, hdriven, hlines'⟩

/-- A run of any length goes on, and no error bit is set in it. -/
theorem ErrorFree.exists_run (h : ErrorFree s lines) (hs : RunsScript s lines) (n : Nat) :
    ∃ t, run n s = .next t ∧ faulted t.block = false := by
  induction n generalizing s lines with
  | zero => exact ⟨s, rfl, h.noError⟩
  | succ n ih =>
    obtain ⟨u, rest, hu, hrest, hruns⟩ := hs.exists_next
    obtain ⟨t, ht, hnoError⟩ := ih (h.of_stepsTo hs (stepsTo_of_step hu) hrest) hruns
    exact ⟨t, by rw [run, hu]; exact ht, hnoError⟩

end

/-- Settles O59: the step by its phase, the runs by induction with what every step keeps. -/
theorem wellFormedScriptsAreNeverRefused : Obligations.WellFormedScriptsAreNeverRefused := by
  intro s lines h
  refine ⟨h.exists_next, fun n t ht _ => ?_, fun hnoError hunchecked hdriven hlines n => ?_⟩
  · obtain ⟨rest, hruns⟩ := h.of_run ht
    obtain ⟨u, -, hu, -, -⟩ := hruns.exists_next
    exact ⟨u, hu⟩
  · exact ErrorFree.exists_run ⟨hnoError, hunchecked, hdriven, hlines⟩ h n

end Sys2Proof.Safety
end

