-- ==== Sys2Proof/Proofs/RecordProduct.lean ====
section
/-! What the arithmetic of the multiplier stands for: an operand's fields by its number (spec/40_multiplier.md R120),
a magnitude bit without overflow (R126), and a record as the product of the mantissa unit and the weight (R135). -/

namespace Sys2Proof.Machine

open Sys2Proof.Laws Sys2Proof.Safety

/-! The operand by its number (40 R120) -/

theorem decodeOperand_exponent (w : OpByte) : (decodeOperand w).exponent = BitVec.ofNat 4 (w.toNat / 8) :=
  extractLsb'_eq_of_toNat (BitVec.toNat_ofNat _ _).symm

theorem mantissaUnit_decodeOperand_toNat (w : OpByte) :
    (mantissaUnit (decodeOperand w).mantissa).toNat = 8 + w.toNat % 8 := by
  have hmantissa : (decodeOperand w).mantissa.toNat = w.toNat / 2 ^ 0 % 2 ^ 3 := extractLsb'_toNat_eq w 0 3
  rw [mantissaUnit_toNat, hmantissa]
  omega

theorem mantissaUnit_decodeOperand (w : OpByte) :
    mantissaUnit (decodeOperand w).mantissa = BitVec.ofNat 4 (8 + w.toNat % 8) := by
  rw [← mantissaUnit_decodeOperand_toNat, BitVec.ofNat_toNat, BitVec.setWidth_eq]

/-- The unit as `work` starts with it (40 R124). -/
theorem setWidth_mantissaUnit_decodeOperand (w : OpByte) :
    (mantissaUnit (decodeOperand w).mantissa).setWidth 18 = BitVec.ofNat 18 (8 + w.toNat % 8) := by
  rw [← mantissaUnit_decodeOperand_toNat, BitVec.ofNat_toNat]

/-! One magnitude bit (40 R126, R134) -/

/-- After at most 14 magnitude bits the sign of `lacc` is clear. -/
theorem toInt_of_magnitudeOf {mu : BitVec 4} {k : Nat} {lacc : BitVec 19} (h : MagnitudeOf mu k lacc)
    (hk : k ≤ 14) : lacc.toInt = lacc.toNat :=
  toInt_of_lt (by have := toNat_le_of_magnitudeOf h hk; omega)

/-- The sum with one more magnitude bit is exact: it neither wraps nor reaches the sign of `lacc`. -/
theorem toInt_add_bit {mu : BitVec 4} {k : Nat} {lacc : BitVec 19} {work : BitVec 18} (x : Bool)
    (h : MagnitudeOf mu k lacc) (hk : k + 1 ≤ 14) (hwork : work.toNat = mu.toNat * 2 ^ k) :
    (if x then lacc + work.setWidth 19 else lacc).toInt = lacc.toInt + (if x then (work.toNat : Int) else 0) := by
  rw [toInt_of_magnitudeOf (magnitudeOf_add_bit x h (by omega) hwork) hk, toInt_of_magnitudeOf h (by omega)]
  cases x with
  | false => simp
  | true =>
    have hlacc := toNat_le_of_magnitudeOf h (by omega)
    simp only [if_true, BitVec.toNat_add, BitVec.toNat_setWidth]
    omega

/-! The record (40 R135, 41 R152) -/

/-- A precision has at most 14 magnitude bits, so the record's magnitude reads the same with and without sign. -/
theorem weightSignCorrect_eq_product {r : IResult} {bits : List Bool} (hprec : r.prec.toNat = bits.length + 1)
    (hmag : r.mag.toNat = r.mu.toNat * bitsValue bits) :
    weightSignCorrect r = r.mu.toNat * weightValue (bits ++ [r.wsign]) := by
  have hmagnitude : MagnitudeOf r.mu bits.length r.mag := ⟨bitsValue bits, bitsValue_lt bits, hmag⟩
  rw [weightSignCorrect, weightValue_append, toInt_of_magnitudeOf hmagnitude (by omega), hmag, hprec,
    Nat.add_sub_cancel, shl]
  cases r.wsign with
  | false => simp
  | true => simp only [if_true, Bool.toNat_true]; push_cast; ring

/-- Settles O18: the correction takes the unit times the weight of the sign bit from the unit times the magnitude
bits. -/
theorem recordStandsForTheProduct : Obligations.RecordStandsForTheProduct := by
  rintro r bits x hprec rfl hmag
  exact weightSignCorrect_eq_product hprec hmag

end Sys2Proof.Machine
end

