-- ==== Sys2Proof/Proofs/MultiplierRows.lean ====
section
/-! The transitions of the multiplier phase, row by row (spec/40_multiplier.md R122 to R130): in its phase a selected
row puts its operation's block in place (`multTransition_of_mult`), and the operation's law says what that block is. -/

namespace Sys2Proof.Machine

open Sys2Proof.Safety

/-! IDLE -/

/-- Settles O20: the operation of the three rows is to leave the block. -/
theorem waitingAndStallingChangeNothing : Obligations.WaitingAndStallingChangeNothing :=
  fun s _ hp =>
    ⟨fun hm hv => multTransition_of_mult s.block hp (by simp [hm, hv]),
      fun hm hv hq => multTransition_of_mult s.block hp (by simp [hm, hv, hq]),
      fun hm hq => multTransition_of_mult s.block hp (by simp [hm, hq])⟩

/-- Settles O21: the operation is to raise the cause whose mask is bit 0. -/
theorem illegalPrecisionSetsErrAndNothingElse : Obligations.IllegalPrecisionSetsErrAndNothingElse := by
  intro s more hp hm hv hq hillegal
  have hl : precisionLegal s.inputs.precision = false :=
    Bool.eq_false_iff.2 fun h => hillegal ((precisionLegal_iff _).1 h)
  exact multTransition_of_mult (s.block.raise .invalidPrecision) hp (by simp [hm, hv, hq, hl])

/-- Settles O22: acceptance loads the fields of the oldest operand, which are quotients of its number. -/
theorem acceptLoadsTheOperand : Obligations.AcceptLoadsTheOperand := by
  intro s more w rest hp hm hv hq hone hmax
  have hl : precisionLegal s.inputs.precision = true := (precisionLegal_iff _).2 ⟨hone, hmax⟩
  have hexec : exec .mIdleAccept s =
      .next { s with block := s.block.accept s.inputs.precision, phase := .accum more } :=
    multTransition_of_mult _ hp (by simp [hm, hv, hq, hl])
  rw [hexec, Block.accept_of_cons _ hq, decodeOperand_exponent, setWidth_mantissaUnit_decodeOperand,
    mantissaUnit_decodeOperand]
  rfl

/-! COMPUTE -/

theorem magnitudeNext_iff (b : Block) : b.magnitudeNext = true ↔ b.cnt.toNat + 1 < b.prec.toNat :=
  decide_eq_true_iff

/-- Settles O23: before the bit `cnt` ≤ 13 bits are in `lacc`, and `work` is the unit at the weight of the next. -/
theorem magnitudeBitAddsAndDoubles : Obligations.MagnitudeBitAddsAndDoubles := by
  intro s more x rest hinv hp hm hq hc
  obtain ⟨-, -, hwork, hlacc⟩ := hinv.of_compute hm
  have hexec : exec .mComputeMag s = .next { s with block := s.block.magnitudeBit, phase := .accum more } :=
    multTransition_of_mult _ hp (by simp [hm, hq, (magnitudeNext_iff _).2 hc])
  rw [Block.magnitudeBit_of_cons hq] at hexec
  refine ⟨_, _, _, hexec, toInt_add_bit x hlacc (by omega) hwork, ?_, toNat_add_one (by omega)⟩
  rw [toNat_shiftLeft_one (by omega) hwork, hwork]
  ring

/-- Settles O24: the counter after the last bit is the precision. -/
theorem signBitIsStoredAndEndsCompute : Obligations.SignBitIsStoredAndEndsCompute := by
  intro s more x rest hp hm hq hc
  have hlast : s.block.magnitudeNext = false :=
    Bool.eq_false_iff.2 fun h => hc.not_lt ((magnitudeNext_iff _).1 h)
  have hcnt : s.block.cnt + 1#4 = s.block.prec :=
    BitVec.eq_of_toNat_eq ((toNat_add_one (by omega)).trans hc)
  have hexec : exec .mComputeSign s = .next { s with block := s.block.signBit, phase := .accum more } :=
    multTransition_of_mult _ hp (by simp [hm, hq, hlast])
  rw [hexec, Block.signBit_of_cons hq, hcnt]

/-! DONE -/

/-- Settles O25: the operation is to push the record of the registers. -/
theorem emitPushesTheRecord : Obligations.EmitPushesTheRecord := by
  intro s more hp hm hroom
  have hfull : s.block.resqFull s.params = false :=
    Bool.eq_false_iff.2 fun h => hroom.ne ((resqFull_iff hroom.le).1 h)
  exact multTransition_of_mult s.block.emit hp (by simp [hm, hfull])

/-- 40 R129: without room the multiplier phase leaves the block. -/
theorem multiplierPhase_of_full {p : Params} {b : Block} (i : Inputs) (hm : b.mstate = .done)
    (hlen : b.resq.length = p.resqDepth) : multiplierPhase p i b = b := by
  simp [multiplierPhase, hm, hlen]

/-- 41 R150: a record with a precision is taken. -/
theorem accumulatorPhase_of_cons {p : Params} {b : Block} {r : IResult} {rest : List IResult} (i : Inputs)
    (hq : b.resq = r :: rest) (hprec : r.prec ≠ 0#4) :
    accumulatorPhase p i b = some (Block.accumulate p (contribution r i.refExp) { b with resq := rest }) := by
  rw [accumulatorPhase, if_neg (by simp [hq]), Block.consume_of_cons p i.refExp hq hprec]

/-- 20 R63: the step of a blocked multiplier takes the oldest record, and a full channel has one. -/
theorem pipelineStep_of_full {p : Params} {b : Block} (i : Inputs) (hdepth : 1 ≤ p.resqDepth)
    (hm : b.mstate = .done) (hlen : b.resq.length = p.resqDepth) (hprec : ∀ r ∈ b.resq, r.prec ≠ 0#4) :
    ∃ b', pipelineStep p i b = some b' ∧ b'.mstate = .done ∧ b'.resq = b.resq.tail := by
  obtain ⟨r, rest, hq⟩ := List.exists_cons_of_length_pos (hdepth.trans_eq hlen.symm)
  have hr : r.prec ≠ 0#4 := hprec r (by rw [hq]; exact List.mem_cons_self)
  refine ⟨_, by rw [pipelineStep, multiplierPhase_of_full i hm hlen, accumulatorPhase_of_cons i hq hr], ?_, ?_⟩
  · rw [Block.accumulate_mstate, hm]
  · rw [Block.accumulate_resq, hq, List.tail_cons]

/-- Settles O26: the blocked row leaves the block, and the accumulator phase of the same step takes a record. -/
theorem blockHoldsTheResultForOneStep : Obligations.BlockHoldsTheResultForOneStep := by
  refine ⟨fun s more hp hm hlen => ?_, fun p i b hlegal hm hlen hprec => ?_⟩
  · have hfull := (resqFull_iff hlen.le).2 hlen
    exact multTransition_of_mult s.block hp (by simp [hm, hfull])
  · obtain ⟨-, hdepth, -⟩ := hlegal
    obtain ⟨b', hstep, hdone, htail⟩ := pipelineStep_of_full i hdepth hm hlen hprec
    exact ⟨b', hstep, hdone, htail, by rw [htail, List.length_tail]; omega⟩

/-! The reserved code -/

/-- Settles O8: the case tree of 40 R121 has no such row, and the meaning of the row refuses. -/
theorem reservedStateCodeIsUnreachableAndRefused : Obligations.ReservedStateCodeIsUnreachableAndRefused := by
  refine ⟨fun p i b => ?_, fun _ => rfl⟩
  rw [decodeMsel_mselWord]
  cases b.mstate with
  | idle => simp only; split_ifs <;> simp
  | compute => simp only; split_ifs <;> simp
  | done => simp only; split_ifs <;> simp

end Sys2Proof.Machine
end

