-- ==== Sys2Proof/Proofs/Alignment.lean ====
section
/-! The accumulator's arithmetic on integers (spec/41_accumulator.md R154, R155, R161), and the real numbers it stands
for (R159, spec/10_state.md R41): alignment changes the scale of a number, not its value, unless it loses something. -/

namespace Sys2Proof.Machine

open Sys2Proof.Safety

/-! The wrap (00 R11, 41 R161) -/

theorem wrap_of_inRange {n : Nat} {x : Int} (hn : 1 ≤ n) (h : InRange n x) : wrap n x = x :=
  (wrap_eq_iff hn).2 ⟨h, by rw [sub_self]; exact dvd_zero _⟩

/-- 41 R158: a sum overflows exactly when it is out of the range. -/
theorem overflows_iff {n : Nat} {x : Int} (hn : 1 ≤ n) : overflows n x = true ↔ ¬ InRange n x := by
  have hself : wrap n x = x ↔ InRange n x := by
    rw [wrap_eq_iff hn, sub_self]
    exact and_iff_left (dvd_zero _)
  rw [overflows, bne_iff_ne, ne_eq, eq_comm, hself]

/-- Settles O15: `wrap` keeps the residue modulo `2^n`, which sums, negation and products respect; the right shift at
16 bits moves the bit that the wrap drops into the sign. -/
theorem wrapCommutesWithAddAndLeftShiftOnly : Obligations.WrapCommutesWithAddAndLeftShiftOnly := by
  refine ⟨fun n a b => ?add, fun n a b => ?sub, fun n a => ?neg, fun n a k => ?shl, by decide, by decide⟩
  case add => simp only [wrap, Int.bmod_add_bmod, Int.add_bmod_bmod]
  case sub => simp only [wrap, Int.bmod_sub_bmod, Int.sub_bmod_bmod]
  case neg => simp only [wrap, ← Int.zero_sub, Int.sub_bmod_bmod]
  case shl => simp only [wrap, shl, Int.bmod_mul_bmod]

/-! Alignment (41 R154, R155) -/

/-- Settles O16: to the left alignment multiplies, to the right it is `>>a`. -/
theorem alignmentIsExactLeftAndRoundsDownRight : Obligations.AlignmentIsExactLeftAndRoundsDownRight :=
  fun v _ _ => ⟨align_left, fun h => by rw [align_right h]; exact ashr_bounds v _⟩

/-- One integer is on the scale of the reference exponent: the aligned one. -/
theorem onScale_iff_eq_align {v c : Int} {e r : Nat} : OnScale v e r c ↔ c = align v e r := by
  obtain ⟨hleft, hright⟩ := alignmentIsExactLeftAndRoundsDownRight v e r
  have hpow : (0 : Int) < 2 ^ (r - e) := by positivity
  rw [Int.toNat_sub, Nat.cast_le] at hleft
  rw [Int.toNat_sub, Nat.cast_lt] at hright
  constructor
  · rintro ⟨hexact, hfloor⟩
    rcases Nat.lt_or_ge e r with h | h
    · obtain ⟨hlow, hhigh⟩ := hfloor h
      obtain ⟨hlow', hhigh'⟩ := hright h
      exact floor_unique hpow hlow hhigh hlow' hhigh'
    · rw [hexact h, hleft h]
  · rintro rfl
    exact ⟨hleft, hright⟩

theorem ashr_neg_of_dvd {v : Int} {k : Nat} (h : (2 : Int) ^ k ∣ v) : ashr (-v) k = -ashr v k :=
  Int.neg_ediv_of_dvd h

theorem ashr_neg_of_not_dvd {v : Int} {k : Nat} (h : ¬ (2 : Int) ^ k ∣ v) : ashr (-v) k = -ashr v k - 1 := by
  rw [ashr, Int.neg_ediv, if_neg h, Int.sign_eq_one_of_pos (by positivity), ashr]

/-- Settles O17: the quotient of `-v` rounds down where the negated quotient of `v` was rounded up. -/
theorem negationDoesNotCommuteWithALossyShift : Obligations.NegationDoesNotCommuteWithALossyShift := by
  intro v e r h
  rw [align_right h, align_right h]
  exact ⟨ashr_neg_of_dvd, ashr_neg_of_not_dvd⟩

/-- An alignment that drops only zeros changes the scale and not the value. -/
theorem align_mul_two_pow {v : Int} {e r : Nat} (h : (2 : Int) ^ (r - e) ∣ v) : align v e r * 2 ^ r = v * 2 ^ e := by
  rcases Nat.lt_or_ge e r with hlt | hge
  · rw [align_right (by omega), Int.toNat_sub, ashr, ← Nat.sub_add_cancel hlt.le, pow_add, ← mul_assoc,
      Nat.add_sub_cancel, Int.ediv_mul_cancel h]
  · rw [align_left (by omega), Int.toNat_sub, mul_assoc, ← pow_add, Nat.sub_add_cancel hge]

/-! The real numbers (30 R91, 10 R41, 41 R159) -/

/-- A biased exponent as the power it stands for. -/
theorem two_zpow_sub_bias (e : Nat) : (2 : Rat) ^ ((e : Int) - Config.bias) = 2 ^ e / 128 := by
  rw [zpow_sub₀ two_ne_zero, zpow_natCast, zpow_natCast]
  norm_num [Config.bias]

theorem realAcc_eq (c : Int) (r : BitVec 4) : realAcc c r = c * 2 ^ r.toNat / 1024 := by
  rw [realAcc, two_zpow_sub_bias]
  ring

theorem realAcc_add (c d : Int) (r : BitVec 4) : realAcc (c + d) r = realAcc c r + realAcc d r := by
  simp only [realAcc_eq]
  push_cast
  ring

theorem realAcc_mul (c w : Int) (r : BitVec 4) : realAcc (c * w) r = realAcc c r * w := by
  simp only [realAcc_eq]
  push_cast
  ring

/-- What alignment to `r` is for: the number under `r` stands for what the one under `e` did. -/
theorem realAcc_align {v : Int} {e r : BitVec 4} (h : (2 : Int) ^ (r.toNat - e.toNat) ∣ v) :
    realAcc (align v e.toNat r.toNat) r = realAcc v e := by
  have hscale : (align v e.toNat r.toNat : Rat) * 2 ^ r.toNat = v * 2 ^ e.toNat := by
    exact_mod_cast align_mul_two_pow h
  rw [realAcc_eq, realAcc_eq, hscale]

/-- 30 R91: an operand is its mantissa unit, with its sign, under its own exponent. -/
theorem floatValue_eq_realAcc (b : OpByte) :
    floatValue b =
      realAcc (floatSignCorrect (decodeOperand b).sign (mantissaUnit (decodeOperand b).mantissa).toNat)
        (decodeOperand b).exponent := by
  rw [floatValue, two_zpow_sub_bias, realAcc_eq, mantissaUnit_toNat, floatSignCorrect]
  cases (decodeOperand b).sign with
  | false => simp only [Bool.false_eq_true, if_false]; push_cast; ring
  | true => simp only [if_true]; push_cast; ring

theorem floatSignCorrect_mul (f : Bool) (v w : Int) : floatSignCorrect f (v * w) = floatSignCorrect f v * w := by
  cases f
  · rfl
  · exact (neg_mul v w).symm

theorem dvd_floatSignCorrect {d v : Int} (f : Bool) (h : d ∣ v) : d ∣ floatSignCorrect f v := by
  cases f
  · exact h
  · exact h.neg_right

/-- Settles O19: the record is the unit times the weight, and neither the alignment nor the wrap changes what it stands
for. -/
theorem realAccumulatorGrowsByTheProduct : Obligations.RealAccumulatorGrowsByTheProduct := by
  rintro b bits x r refExp accW acc hsign hexp hmu hprec rfl hmag hdvd haccW hrange
  rw [wrap_of_inRange haccW hrange, realAcc_add, contribution, realAcc_align (dvd_floatSignCorrect _ hdvd),
    weightSignCorrect_eq_product hprec hmag, floatSignCorrect_mul, realAcc_mul, hsign, hexp, hmu,
    floatValue_eq_realAcc]

end Sys2Proof.Machine
end

