-- ==== Sys2Proof/Proofs/AccumulatorRows.lean ====
section
/-! The transitions of the accumulator phase, row by row (spec/41_accumulator.md R150 to R158), and what OVF_CHECK
changes in a step (R158). -/

namespace Sys2Proof.Machine

open Sys2Proof.Safety

/-! Without a record (41 R151) -/

/-- Settles O27: the operation is to clear OUT_VALID. -/
theorem noRecordClearsOutValidOnly : Obligations.NoRecordClearsOutValidOnly :=
  fun s _ hp hq => accumTransition_of_accum s.block.noResult hp (by rw [hq, List.isEmpty_nil])

/-! With a record (41 R150, R152) -/

theorem Block.headMatches_of_cons {b : Block} {r : IResult} {rest : List IResult} (refExp : BitVec 4)
    (hq : b.resq = r :: rest) :
    b.headMatches refExp r.wsign r.fsign (decide (r.exp.toNat < refExp.toNat)) = true := by
  simp [Block.headMatches, hq]

theorem Block.consume_of_prec_zero {b : Block} {r : IResult} {rest : List IResult} (p : Params) (refExp : BitVec 4)
    (hq : b.resq = r :: rest) (hprec : r.prec = 0#4) : b.consume p refExp = none := by
  simp only [Block.consume, hq, if_pos hprec]

theorem accumTransition_none {sel : Bool} {s : State} {more : Nat} (hp : s.phase = .accum more) (hs : sel = true) :
    accumTransition sel none s = .refused .zeroPrecisionRecord := by
  simp only [accumTransition, hp, hs, if_true]

/-- Settles O29: the fields select the row, and its operation has no block for such a record. -/
theorem recordWithoutPrecisionIsRefused : Obligations.RecordWithoutPrecisionIsRefused := by
  intro s more r rest hp hq hzero
  have hprec : r.prec = 0#4 := BitVec.eq_of_toNat_eq hzero
  rw [exec, execAConsume, Block.consume_of_prec_zero _ _ hq hprec]
  exact accumTransition_none hp (Block.headMatches_of_cons _ hq)

theorem weightSignCorrect_eq_sub (r : IResult) :
    weightSignCorrect r = r.mag.toInt - (if r.wsign then (r.mu.toNat : Int) * 2 ^ (r.prec.toNat - 1) else 0) := by
  rw [weightSignCorrect, shl]
  split
  · rfl
  · rw [sub_zero]

/-- 41 R156 to R158: an accumulation writes ACC, OUT_VALID and ERR. -/
theorem Block.accumulate_eq (p : Params) (v3 : Int) (b : Block) :
    b.accumulate p v3 =
      { b with acc := wrap p.accW (b.acc + v3), outValid := true, err := (b.accumulate p v3).err } := by
  simp only [Block.accumulate]
  split <;> rfl

/-- 41 R158: an accumulation keeps bit 0 of ERR, and sets bit 1 when a checked sum is out of the range. -/
theorem Block.accumulate_err_bits {p : Params} (v3 : Int) (b : Block) (hw : 1 ≤ p.accW) :
    (b.accumulate p v3).err.getLsbD 0 = b.err.getLsbD 0 ∧
    ((b.accumulate p v3).err.getLsbD 1 = true ↔
      b.err.getLsbD 1 = true ∨ p.ovfCheck = true ∧ ¬ InRange p.accW (b.acc + v3)) := by
  rw [Block.accumulate_err, ← overflows_iff hw, ← Bool.and_eq_true]
  split
  · rename_i h
    simp [h]
  · rename_i h
    simp [h]

/-- Settles O28: the sub-steps are those of `contribution`, and the alignment is the one number on the scale. -/
theorem consumeAddsTheAlignedProduct : Obligations.ConsumeAddsTheAlignedProduct := by
  intro s more r rest v1 v2 v3 hp hq hone hw hv1 hv2 hleft hright
  have hprec : r.prec ≠ 0#4 := by rintro hzero; simp [hzero] at hone
  have hv3 : contribution r s.inputs.refExp = v3 := by
    rw [contribution, weightSignCorrect_eq_sub, ← hv1, floatSignCorrect, ← hv2]
    exact (onScale_iff_eq_align.1 ⟨hleft, hright⟩).symm
  obtain ⟨hrange, hcongr⟩ := (wrap_eq_iff (x := s.block.acc + v3) hw).1 rfl
  refine ⟨_, _, ?_, hrange, hcongr, Block.accumulate_err_bits v3 { s.block with resq := rest } hw⟩
  rw [exec, execAConsume, Block.consume_of_cons _ _ hq hprec, hv3, Block.accumulate_eq]
  exact accumTransition_of_accum _ hp (Block.headMatches_of_cons _ hq)

/-! The overflow check (41 R158) -/

/-- The multiplier phase does not read OVF_CHECK. -/
theorem multiplierPhase_ovfCheck (p : Params) (c : Bool) (i : Inputs) (b : Block) :
    multiplierPhase { p with ovfCheck := c } i b = multiplierPhase p i b := rfl

/-- With the check an accumulation is the same, but for raising an overflow. -/
theorem Block.accumulate_ovfCheck (p : Params) (v3 : Int) (b : Block) :
    b.accumulate { p with ovfCheck := true } v3 =
      if overflows p.accW (b.acc + v3) then (b.accumulate { p with ovfCheck := false } v3).raise .accOverflow
      else b.accumulate { p with ovfCheck := false } v3 := by
  simp only [Block.accumulate, Bool.true_and, Bool.false_and, Bool.false_eq_true, if_false]

theorem accumulatorPhase_of_nil {b : Block} (p : Params) (i : Inputs) (hq : b.resq = []) :
    accumulatorPhase p i b = some b.noResult :=
  if_pos (by rw [hq, List.isEmpty_nil])

/-- The steps without and with the check end in the same block, or the second raises an overflow in it. -/
theorem pipelineStep_ovfCheck {p : Params} {i : Inputs} {b b' b'' : Block}
    (hoff : pipelineStep { p with ovfCheck := false } i b = some b')
    (hon : pipelineStep { p with ovfCheck := true } i b = some b'') : b'' = b' ∨ b'' = b'.raise .accOverflow := by
  rw [pipelineStep, multiplierPhase_ovfCheck] at hoff hon
  obtain ⟨hq, rfl⟩ | ⟨r, rest, hq, hprec, rfl⟩ := accumulatorPhase_eq_some hoff
  · rw [accumulatorPhase_of_nil _ i hq] at hon
    exact .inl (Option.some.inj hon).symm
  · rw [accumulatorPhase_of_cons i hq hprec, Block.accumulate_ovfCheck] at hon
    obtain rfl := Option.some.inj hon
    split
    · exact .inr rfl
    · exact .inl rfl

/-- Settles O57: raising an overflow writes ERR only, and there it sets bit 1. -/
theorem overflowCheckChangesOnlyItsBit : Obligations.OverflowCheckChangesOnlyItsBit := by
  intro p i b b' b'' hoff hon
  obtain rfl | rfl := pipelineStep_ovfCheck hoff hon
  · exact ⟨rfl, rfl, id⟩
  · exact ⟨rfl, by simp [Cause.mask], by simp [Cause.mask]⟩

end Sys2Proof.Machine
end

