-- ==== Sys2Proof/Proofs/HostMoveRows.lean ====
section
/-! The host moves, row by row (spec/42_controller.md R175 to R179): between steps a move's answer is its own
(`hostMove_of_host`). A cycle at the ports makes these moves before its step (R181). -/

namespace Sys2Proof.Machine

/-- 00 R13: a channel with fewer elements than its capacity, if it has one, takes a further element. -/
theorem chanFull_eq_false_of_lt {α : Type} {cap : Option Nat} {q : List α} (h : ∀ c ∈ cap, q.length < c) :
    chanFull cap q = false := by
  cases cap with
  | none => rfl
  | some c => exact decide_eq_false (h c rfl).not_ge

theorem exec_hAccClear_of_host {s : State} (hp : s.phase = .host) :
    exec .hAccClear s = .next { s with block := s.block.clearAcc } :=
  hostMove_of_host _ hp

theorem exec_hSetCfg_of_host {s : State} (v : Bool) (p r : BitVec 4) (hp : s.phase = .host) :
    exec (.hSetCfg v p r) s = .next { s with inputs := ⟨v, p, r⟩, configured := true } :=
  hostMove_of_host _ hp

theorem exec_hPushOp_of_room {s : State} (w : OpByte) (hp : s.phase = .host)
    (hroom : s.block.opFull s.params = false) :
    exec (.hPushOp w) s = .next { s with block := s.block.pushOp w } := by
  rw [exec, execHPushOp, hostMove_of_host _ hp, if_neg (by simp [hroom])]

theorem exec_hPushWb_of_room {s : State} (x : Bool) (hp : s.phase = .host)
    (hroom : s.block.wbFull s.params = false) :
    exec (.hPushWb x) s = .next { s with block := s.block.pushWb x } := by
  rw [exec, execHPushWb, hostMove_of_host _ hp, if_neg (by simp [hroom])]

theorem exec_hStep_of_configured {s : State} {n : BitVec 13} (hp : s.phase = .host) (hn : n ≠ 0#13)
    (hcfg : s.configured = true) : exec (.hStep n) s = .next { s with phase := .mult (n.toNat - 1) } := by
  rw [exec, execHStep, hostMove_of_host _ hp, if_neg hn, if_pos hcfg]

theorem exec_hStep_of_not_configured {s : State} {n : BitVec 13} (hp : s.phase = .host) (hn : n ≠ 0#13)
    (hcfg : s.configured = false) : exec (.hStep n) s = .refused .inputsNotDriven := by
  rw [exec, execHStep, hostMove_of_host _ hp, if_neg hn, if_neg (by simp [hcfg])]

/-- Settles O31: the operation is to clear ACC. -/
theorem clearSetsAccOnly : Obligations.ClearSetsAccOnly :=
  fun _ => exec_hAccClear_of_host

/-- Settles O32: the move writes the inputs and no field of the block. -/
theorem setCfgDrivesTheInputsOnly : Obligations.SetCfgDrivesTheInputsOnly :=
  fun _ => exec_hSetCfg_of_host

/-- Settles O33: a channel with room is not full, and the operation is to append. -/
theorem pushesAppendToTheirChannel : Obligations.PushesAppendToTheirChannel :=
  fun _ hp =>
    ⟨fun w hroom => exec_hPushOp_of_room w hp (chanFull_eq_false_of_lt hroom),
      fun x hroom => exec_hPushWb_of_room x hp (chanFull_eq_false_of_lt hroom)⟩

/-- Settles O35: the move asks whether a CFG precedes, and then gives the turn to the multiplier phase. -/
theorem stepMoveStartsItsSteps : Obligations.StepMoveStartsItsSteps :=
  fun _ _ hp hn => ⟨exec_hStep_of_configured hp hn, exec_hStep_of_not_configured hp hn⟩

/-! A cycle at the ports (42 R181) -/

/-- A move that a port asks for or not, as one state: only the block depends on the port. -/
theorem ite_move_eq_next {c : Bool} {s : State} {o : Host.Outcome State Fault Refusal} {b : Block}
    (h : c = true → o = .next { s with block := b }) :
    (if c then o else .next s) = .next { s with block := if c then b else s.block } := by
  cases c with
  | true => exact h rfl
  | false => rfl

/-- Clearing ACC leaves OPQ as it is, so the port's guard is the move's. -/
theorem opFull_ite_clearAcc (p : Params) (c : Bool) (b : Block) :
    (if c then b.clearAcc else b).opFull p = b.opFull p := by
  cases c <;> rfl

/-- Neither the clear nor the push of an operand writes WBQ, so the port's guard is the move's. -/
theorem wbFull_ite_pushOp (p : Params) (c d : Bool) (w : OpByte) (b : Block) :
    (if d then (if c then b.clearAcc else b).pushOp w else if c then b.clearAcc else b).wbFull p = b.wbFull p := by
  cases c <;> cases d <;> rfl

/-- Settles O58: the moves of the cycle are those of the script, each under the guard that admits it. -/
theorem portCycleIsItsHostMovesThenAStep : Obligations.PortCycleIsItsHostMovesThenAStep := by
  refine fun s x hp => ⟨fun hrst => if_pos hrst, fun hrst => ?_⟩
  have hop := opFull_ite_clearAcc s.params x.accClear s.block
  have hwb := wbFull_ite_pushOp s.params x.accClear (x.opPush && !s.block.opFull s.params) x.opData s.block
  refine ⟨_, _, _, ite_move_eq_next fun _ => exec_hAccClear_of_host hp,
    ite_move_eq_next fun h => exec_hPushOp_of_room x.opData hp ?opRoom,
    ite_move_eq_next fun h => exec_hPushWb_of_room x.wbData hp ?wbRoom, ?cycle⟩
  case opRoom => simpa only [hop, Bool.not_eq_true'] using (Bool.and_eq_true_iff.1 h).2
  case wbRoom => simpa only [hwb, Bool.not_eq_true'] using (Bool.and_eq_true_iff.1 h).2
  case cycle => simp only [portCycle, hrst, portMoves, hop, hwb, Bool.false_eq_true, if_false]

end Sys2Proof.Machine
end

