-- ==== Sys2Proof/Proofs/ControllerStep.lean ====
section
/-! The controller's step (spec/42_controller.md R170): two transitions of the model are one, it has a result in every
state, it reads what it samples and nothing else (R172), a record is consumed only in the step that emits it (R173),
and a quiescent pipeline stays as it is (R182). -/

namespace Sys2Proof.Machine

open Sys2Proof.Safety

/-! The result of a step (42 R170) -/

/-- 41 R152: a record without a precision is the only one that the accumulator phase refuses. -/
theorem exists_accumulatorPhase_of_prec {b : Block} (p : Params) (i : Inputs) (h : ∀ r ∈ b.resq, r.prec ≠ 0#4) :
    ∃ b', accumulatorPhase p i b = some b' := by
  cases hq : b.resq with
  | nil => exact ⟨_, accumulatorPhase_of_nil p i hq⟩
  | cons r rest => exact ⟨_, accumulatorPhase_of_cons i hq (h r (by rw [hq]; exact List.mem_cons_self))⟩

/-- Settles O39: the multiplier phase always has a block, the accumulator phase whenever it refuses no record. -/
theorem everyPhaseHasAResult : Obligations.EveryPhaseHasAResult := by
  intro s hphase hprec
  cases hp : s.phase with
  | host => exact absurd hp hphase
  | mult more => exact ⟨_, step_of_mult hp⟩
  | accum more =>
    obtain ⟨b, hb⟩ := exists_accumulatorPhase_of_prec s.params s.inputs hprec
    exact ⟨_, by rw [step_of_accum hp, hb]⟩

theorem run_succ_of_step {s t : State} (n : Nat) (h : step s = .next t) : run (n + 1) s = run n t := by
  rw [run, h]

/-- The two phases of a step, one after the other: a refusal of the second is the only one. -/
theorem run_two_of_mult {s : State} {more : Nat} (hp : s.phase = .mult more) :
    run 2 s =
      match pipelineStep s.params s.inputs s.block with
      | some b => .next { s with block := b, phase := Phase.afterStep more }
      | none => .refused .zeroPrecisionRecord := by
  have haccum := step_of_accum (more := more)
    (s := { s with block := multiplierPhase s.params s.inputs s.block, phase := .accum more }) rfl
  rw [run_succ_of_step 1 (step_of_mult hp), run, haccum, pipelineStep]
  cases accumulatorPhase s.params s.inputs (multiplierPhase s.params s.inputs s.block) <;> rfl

/-- Settles O50: each transition is its phase of the controller. -/
theorem twoTransitionsAreOneStep : Obligations.TwoTransitionsAreOneStep :=
  fun _ _ => run_two_of_mult

/-! What a step samples (42 R172) -/

/-- The multiplier phase reads `valid` in IDLE, and `precision` there when it takes an operand up. -/
theorem multiplierPhase_congr {i j : Inputs} {b : Block} (p : Params)
    (hvalid : b.mstate = .idle → i.valid = j.valid)
    (hprec : b.mstate = .idle → i.valid = true → b.opq ≠ [] → i.precision = j.precision) :
    multiplierPhase p i b = multiplierPhase p j b := by
  cases hm : b.mstate with
  | idle =>
    simp only [multiplierPhase, hm, ← hvalid hm]
    split
    · rename_i htaken
      obtain ⟨hv, hop⟩ := Bool.and_eq_true_iff.1 htaken
      rw [hprec hm hv (by simpa using hop)]
    · rfl
  | compute | done => simp only [multiplierPhase, hm]

/-- The accumulator phase reads `ref_exp` when there is a record. -/
theorem accumulatorPhase_congr {i j : Inputs} {b : Block} (p : Params) (href : b.resq ≠ [] → i.refExp = j.refExp) :
    accumulatorPhase p i b = accumulatorPhase p j b := by
  by_cases hq : b.resq = []
  · rw [accumulatorPhase_of_nil p i hq, accumulatorPhase_of_nil p j hq]
  · rw [accumulatorPhase, href hq, accumulatorPhase]

/-- Settles O49: what a phase samples is all it reads. -/
theorem unsampledInputsDoNotMatter : Obligations.UnsampledInputsDoNotMatter := by
  intro p i j b
  refine ⟨fun hm => ?_, fun _ hvalid hwait => ?_, fun hvalid hprec => ?_, fun hq => ?_, fun href => ?_,
    fun hvalid hprec href => ?_⟩
  · exact multiplierPhase_congr p (fun h => absurd h hm) fun h => absurd h hm
  · refine multiplierPhase_congr p (fun _ => hvalid) fun _ htrue hop => ?_
    obtain hfalse | hq := hwait
    · exact absurd htrue (by simp [hfalse])
    · exact absurd hq hop
  · exact multiplierPhase_congr p (fun _ => hvalid) fun _ _ _ => hprec
  · exact accumulatorPhase_congr p fun h => absurd hq h
  · exact accumulatorPhase_congr p fun _ => href
  · rw [pipelineStep, pipelineStep, ← multiplierPhase_congr p hvalid hprec, accumulatorPhase_congr p href]

/-! Consumption and emission (42 R173) -/

theorem decodeMsel_eq_mDoneBlock_iff (p : Params) (i : Inputs) (b : Block) :
    decodeMsel (mselWord p i b) = .mDoneBlock ↔ b.mstate = .done ∧ b.resqFull p = true := by
  rw [decodeMsel_mselWord]
  cases b.mstate with
  | idle | compute => simp only; split_ifs <;> simp
  | done => simp

theorem decodeMsel_eq_mDoneEmit_iff (p : Params) (i : Inputs) (b : Block) :
    decodeMsel (mselWord p i b) = .mDoneEmit ↔ b.mstate = .done ∧ b.resqFull p = false := by
  rw [decodeMsel_mselWord]
  cases b.mstate with
  | idle | compute => simp only; split_ifs <;> simp
  | done => simp

/-- 41 R150: A.CONSUME is selected exactly when there is a record. -/
theorem exists_decodeAsel_eq_aConsume_iff (i : Inputs) (b : Block) :
    (∃ w f n, decodeAsel (aselWord i b) = .aConsume w f n) ↔ b.resq ≠ [] := by
  rw [decodeAsel_aselWord]
  cases b.resq <;> simp

/-- From empty, the multiplier phase leaves a record exactly when it emits one. -/
theorem multiplierPhase_resq_ne_nil_iff {p : Params} {b : Block} (i : Inputs) (hdepth : 1 ≤ p.resqDepth)
    (hq : b.resq = []) : (multiplierPhase p i b).resq ≠ [] ↔ b.mstate = .done := by
  have hroom : 0 < p.resqDepth := hdepth
  simp [multiplierPhase_resq, hq, hroom]

/-- Settles O55: an empty channel has room, so DONE emits; and the record emitted is the only one to consume. -/
theorem consumptionComesWithEmissionOnly : Obligations.ConsumptionComesWithEmissionOnly := by
  intro s t more hp hq hdepth h
  have hroom : s.block.resqFull s.params = false :=
    decide_eq_false (by rw [hq]; exact Nat.not_le_of_lt hdepth)
  rw [step_of_mult hp] at h
  cases h
  rw [Ne, decodeMsel_eq_mDoneBlock_iff, decodeMsel_eq_mDoneEmit_iff, exists_decodeAsel_eq_aConsume_iff,
    multiplierPhase_resq_ne_nil_iff _ hdepth hq]
  simp [hroom]

/-! Quiescence (42 R182) -/

theorem Block.quiescent_iff (b : Block) :
    b.quiescent = true ↔ b.mstate = .idle ∧ b.opq = [] ∧ b.resq = [] ∧ b.wbq = [] := by
  simp [Block.quiescent, and_assoc]

/-- Nothing to take up and no record: the step only says that there is no result. -/
theorem pipelineStep_of_quiescent {b : Block} (p : Params) (i : Inputs) (h : b.quiescent = true) :
    pipelineStep p i b = some b.noResult := by
  obtain ⟨hm, hop, hq, -⟩ := b.quiescent_iff.1 h
  have hstay : multiplierPhase p i b = b := by simp [multiplierPhase, hm, hop]
  rw [pipelineStep, hstay, accumulatorPhase_of_nil p i hq]

/-- After the first step nothing reads OUT_VALID and every step clears it again. -/
theorem pipelineSteps_succ_of_quiescent {b : Block} (p : Params) (i : Inputs) (n : Nat) (h : b.quiescent = true) :
    pipelineSteps p i (n + 1) b = some b.noResult := by
  induction n with
  | zero => rw [pipelineSteps, pipelineStep_of_quiescent p i h]; rfl
  | succ n ih =>
    rw [pipelineSteps_add, ih, Option.bind_some, pipelineSteps, pipelineStep_noResult,
      pipelineStep_of_quiescent p i h]
    rfl

/-- Settles O56: the step and, by its repetition, the run. -/
theorem quiescentPipelineStaysAsItIs : Obligations.QuiescentPipelineStaysAsItIs := by
  refine fun p i b h => ⟨pipelineStep_of_quiescent p i h, fun n hn _ => ?_⟩
  obtain ⟨k, rfl⟩ := Nat.exists_eq_add_of_le' hn
  exact pipelineSteps_succ_of_quiescent p i k h

end Sys2Proof.Machine
end

