-- ==== Sys2Proof/Proofs/StepMoves.lean ====
section
/-! What a run of the model leads to (spec/42_controller.md R174, R178): H.STEP `n` to `n` steps of the controller, and
the lines of a host turn to its pushes and its driven step. -/

namespace Sys2Proof.Machine

open Sys2Proof.Safety Sys2Proof.Laws

/-! H.STEP (42 R178) -/

/-- From a multiplier phase with `n` further steps to do, all of them are made, and the host has its turn again. -/
theorem run_steps_of_mult {s : State} {n : Nat} {b : Block} (hp : s.phase = .mult n)
    (hb : pipelineSteps s.params s.inputs (n + 1) s.block = some b) :
    run (2 * (n + 1)) s = .next { s with block := b, phase := .host } := by
  induction n generalizing s with
  | zero =>
    obtain ⟨c, hc, hb⟩ := Option.bind_eq_some_iff.1 hb
    cases hb
    rw [Nat.zero_add, Nat.mul_one, run_two_of_mult hp, hc]
    rfl
  | succ n ih =>
    obtain ⟨c, hc, hb⟩ := Option.bind_eq_some_iff.1 hb
    rw [Nat.mul_succ, Nat.add_comm, run_add, run_two_of_mult hp, hc]
    exact ih (s := { s with block := c, phase := .mult n }) rfl hb

/-- 30 R103: a word that decodes to a step counts at least one. -/
theorem ne_zero_of_decode_hStep {w : Hcmd} {n : BitVec 13} (hd : decode (.hcmd w) = .instr (.hStep n)) :
    n ≠ 0#13 := by
  rintro rfl
  have hw := encode_of_decode_hcmd hd
  rw [← hw] at hd
  exact absurd hd (by decide)

/-- H.STEP at the head of the script: the move, and then two transitions for each of its steps. -/
theorem run_hStep {s : State} {w : Hcmd} {n : BitVec 13} {rest : List Hcmd} {b : Block} (hp : s.phase = .host)
    (hcfg : s.configured = true) (hd : decode (.hcmd w) = .instr (.hStep n)) (hscript : s.script = w :: rest)
    (hb : pipelineSteps s.params s.inputs n.toNat s.block = some b) :
    run (2 * n.toNat + 1) s = .next { s with block := b, script := rest } := by
  have hn := ne_zero_of_decode_hStep hd
  obtain ⟨k, hk⟩ : ∃ k, n.toNat = k + 1 := Nat.exists_eq_succ_of_ne_zero (by simpa [BitVec.toNat_eq] using hn)
  have hmove : step s = .next { s with script := rest, phase := .mult k } := by
    rw [step_eq_exec_of_host hp hscript hd, exec_hStep_of_configured (s := { s with script := rest }) hp hn hcfg, hk,
      Nat.add_sub_cancel]
  rw [hk] at hb ⊢
  rw [run_succ_of_step _ hmove, run_steps_of_mult (s := { s with script := rest, phase := .mult k }) rfl hb, hp]

/-! The lines of a host turn (42 R174) -/

/-- The next line of a script, as an instruction. -/
theorem step_of_line {s : State} {i : Instr} {w : Hcmd} {lines : List Instr} {rest : List Hcmd}
    (hp : s.phase = .host) (hscript : s.script = assemble (i :: lines) ++ rest) (hw : encode i = .hcmd w)
    (hwf : i.wellFormed = true) : step s = exec i { s with script := assemble lines ++ rest } := by
  rw [assemble_cons lines hw, List.cons_append] at hscript
  exact step_eq_exec_of_host hp hscript (hw ▸ decode_encode hwf)

/-- Lines that only put an element each into a channel of the block: their puts, in their order. -/
theorem run_puts {α : Type} {line : α → Instr} {put : α → Block → Block} {s : State} {xs : List α}
    {rest : List Hcmd} (hwf : ∀ x, (line x).wellFormed = true) (hw : ∀ x, ∃ w, encode (line x) = .hcmd w)
    (hput : ∀ x (t : State), t.phase = .host → t.params = s.params →
      exec (line x) t = .next { t with block := put x t.block })
    (hp : s.phase = .host) (hscript : s.script = assemble (xs.map line) ++ rest) :
    run xs.length s = .next { s with block := xs.foldl (fun c x => put x c) s.block, script := rest } := by
  induction xs generalizing s with
  | nil => rw [show rest = s.script from hscript.symm]; rfl
  | cons x xs ih =>
    obtain ⟨w, hx⟩ := hw x
    have hmove := (step_of_line hp hscript hx (hwf x)).trans (hput x _ hp rfl)
    rw [List.length_cons, run_succ_of_step _ hmove]
    exact ih hput hp rfl

/-- The pushes of a host turn, on input channels that are never full. -/
theorem run_pushes {s : State} {d : HostTurn} {rest : List Hcmd} (hp : s.phase = .host)
    (hopq : s.params.opqCap = none) (hwbq : s.params.wbqCap = none)
    (hscript : s.script = assemble (d.ops.map .hPushOp ++ d.bits.map .hPushWb) ++ rest) :
    run (d.ops.length + d.bits.length) s = .next { s with block := s.block.feed d, script := rest } := by
  rw [assemble_append, List.append_assoc] at hscript
  have hops := run_puts (put := Block.pushOp) (fun _ => rfl) (fun w => ⟨_, rfl⟩)
    (fun w t ht hparams => exec_hPushOp_of_room w ht (chanFull_eq_false _ (hparams ▸ hopq))) hp hscript
  rw [run_add, hops]
  exact run_puts (put := Block.pushWb) (fun _ => rfl) (fun x => ⟨_, rfl⟩)
    (fun x t ht hparams => exec_hPushWb_of_room x ht (chanFull_eq_false _ (hparams ▸ hwbq))) hp rfl

theorem pipelineSteps_one (p : Params) (i : Inputs) (b : Block) : pipelineSteps p i 1 b = pipelineStep p i b :=
  Option.bind_fun_some _

/-- The CFG and the H.STEP 1 of a host turn: one step with the inputs driven. -/
theorem run_cfg_step {s : State} {i : Inputs} {rest : List Hcmd} {b : Block} (hp : s.phase = .host)
    (hscript : s.script = assemble [.hSetCfg i.valid i.precision i.refExp, .hStep 1#13] ++ rest)
    (hb : pipelineStep s.params i s.block = some b) :
    run 4 s = .next { s with block := b, inputs := i, configured := true, script := rest } := by
  have hmove := (step_of_line hp hscript rfl rfl).trans (exec_hSetCfg_of_host _ _ _ hp)
  rw [run_succ_of_step 3 hmove]
  exact run_hStep (w := 0xA001#16) (n := 1#13) hp rfl (by decide) rfl ((pipelineSteps_one _ _ _).trans hb)

/-- Settles O51: the move and the turn, each by what its lines lead to. -/
theorem stepMovePerformsItsSteps : Obligations.StepMovePerformsItsSteps := by
  refine ⟨fun s w n rest b hp hcfg hd hscript hb _ => run_hStep hp hcfg hd hscript hb,
    fun s d rest b hp hopq hwbq hscript hb _ => ?_⟩
  rw [HostTurn.lines, assemble_append, List.append_assoc] at hscript
  rw [run_add, run_pushes hp hopq hwbq hscript]
  exact run_cfg_step (s := { s with block := s.block.feed d, script := _ }) hp rfl hb

end Sys2Proof.Machine
end

