-- ==== Sys2Proof/Proofs/Exceptions.lean ====
section
/-! The two errors of the block (spec/60_exceptions.md R200 to R205): what each phase does to each bit of ERR, and from
that which transition alone raises the bit. -/

namespace Sys2Proof.Machine

open Sys2Proof.Safety

/-! What each phase does to each bit of ERR -/

/-- 40 R121, R123: when MSEL selects M.IDLE.REJECT. -/
theorem decodeMsel_eq_mIdleReject_iff (p : Params) (i : Inputs) (b : Block) :
    decodeMsel (mselWord p i b) = .mIdleReject ↔
      b.mstate = .idle ∧ i.valid = true ∧ b.opq ≠ [] ∧ precisionLegal i.precision = false := by
  rw [decodeMsel_mselWord]
  cases b.mstate with
  | idle => simp only; split_ifs <;> simp_all
  | compute | done => simp only; split_ifs <;> simp

/-- 60 R200: in the multiplier phase a rejection, and nothing else, sets bit 0. -/
theorem multiplierPhase_err_zero_iff (p : Params) (i : Inputs) (b : Block) :
    (multiplierPhase p i b).err.getLsbD 0 = true ↔
      b.err.getLsbD 0 = true ∨ decodeMsel (mselWord p i b) = .mIdleReject := by
  rw [multiplierPhase_err, decodeMsel_eq_mIdleReject_iff]
  split
  · rename_i hreject
    simp [hreject]
  · rename_i hkept
    simp [hkept]

theorem multiplierPhase_err_one (p : Params) (i : Inputs) (b : Block) :
    (multiplierPhase p i b).err.getLsbD 1 = b.err.getLsbD 1 := by
  rw [multiplierPhase_err]
  split
  · simp
  · rfl

/-- 41 R158: at every width an accumulation keeps bit 0. -/
theorem Block.accumulate_err_zero (p : Params) (v3 : Int) (b : Block) :
    (b.accumulate p v3).err.getLsbD 0 = b.err.getLsbD 0 := by
  rw [Block.accumulate_err]
  split
  · simp
  · rfl

/-! Which transition raises which error -/

theorem currentWord_of_mult {s : State} {more : Nat} (hp : s.phase = .mult more) :
    currentWord s = some (.msel (mselWord s.params s.inputs s.block)) := by
  simp only [currentWord, hp]

/-- A step that turns a bit of ERR from 0 to 1 is a multiplier transition or A.CONSUME. -/
theorem StepsTo.cases_of_raised {s t : State} {k : Nat} (h : StepsTo s t) (hclear : s.block.err.getLsbD k = false)
    (hset : t.block.err.getLsbD k = true) :
    (∃ more, s.phase = .mult more ∧ t.block = multiplierPhase s.params s.inputs s.block) ∨
    ∃ more r rest, s.phase = .accum more ∧ s.block.resq = r :: rest ∧
      t.block = Block.accumulate s.params (contribution r s.inputs.refExp) { s.block with resq := rest } := by
  cases h with
  | multiplier more hp => exact .inl ⟨more, hp, rfl⟩
  | consume more r rest hp hq => exact .inr ⟨more, r, rest, hp, hq, rfl⟩
  | reset => exact absurd hset (by simp [Block.reset])
  | noResult | scriptEnd | accClear | setCfg | pushOp | pushWb | stepMove =>
    exact absurd hset (ne_true_of_eq_false hclear)

/-- Settles O43: of the two transitions that raise errors, A.CONSUME keeps bit 0, and the multiplier's sets it in a
rejection alone. -/
theorem onlyRejectRaisesInvalidPrecision : Obligations.OnlyRejectRaisesInvalidPrecision := by
  intro s t h hclear hset
  obtain ⟨more, hp, ht⟩ | ⟨_, _, _, _, _, ht⟩ := (stepsTo_of_step h).cases_of_raised hclear hset
  · rw [ht, multiplierPhase_err_zero_iff] at hset
    have hreject := hset.resolve_left (ne_true_of_eq_false hclear)
    obtain ⟨hm, hv, hq, hillegal⟩ := (decodeMsel_eq_mIdleReject_iff _ _ _).1 hreject
    refine ⟨⟨_, currentWord_of_mult hp, hreject⟩, hm, hv, hq, ?_⟩
    rw [← precisionLegal_iff]
    exact ne_true_of_eq_false hillegal
  · rw [ht, Block.accumulate_err_zero] at hset
    exact absurd hset (ne_true_of_eq_false hclear)

/-- Settles O44: of the two transitions that raise errors, the multiplier's keep bit 1, and A.CONSUME sets it on a
checked overflow alone. -/
theorem onlyACheckedOverflowRaisesAccOverflow : Obligations.OnlyACheckedOverflowRaisesAccOverflow := by
  intro s t hw h hclear hset
  obtain ⟨_, _, ht⟩ | ⟨more, r, rest, hp, hq, ht⟩ := (stepsTo_of_step h).cases_of_raised hclear hset
  · rw [ht, multiplierPhase_err_one] at hset
    exact absurd hset (ne_true_of_eq_false hclear)
  · obtain ⟨-, hbit⟩ := Block.accumulate_err_bits (contribution r s.inputs.refExp) { s.block with resq := rest } hw
    rw [ht, hbit] at hset
    obtain ⟨hcheck, hout⟩ := hset.resolve_left (ne_true_of_eq_false hclear)
    exact ⟨hcheck, more, r, rest, hp, hq, hout⟩

/-! The two errors in one step -/

/-- From an empty result channel a record stands in it after the multiplier phase only if that phase began in DONE. -/
theorem mstate_of_multiplierPhase_resq_cons {p : Params} {i : Inputs} {b : Block} {r : IResult} {rest : List IResult}
    (hempty : b.resq = []) (hq : (multiplierPhase p i b).resq = r :: rest) : b.mstate = .done := by
  by_contra hm
  simp [multiplierPhase_resq, hm, hempty] at hq

/-- Settles O60: without a record bit 1 is kept, and a record comes from DONE, where nothing is rejected. -/
theorem theTwoErrorsAreNotRaisedTogether : Obligations.TheTwoErrorsAreNotRaisedTogether := by
  rintro p i b b' hempty h hzero hone ⟨hprec, hovf⟩
  obtain ⟨-, rfl⟩ | ⟨r, rest, hq, -, rfl⟩ := accumulatorPhase_eq_some h
  · rw [Block.noResult_err, multiplierPhase_err_one] at hovf
    exact absurd hovf (ne_true_of_eq_false hone)
  · rw [Block.accumulate_err_zero] at hprec
    have hreject := ((multiplierPhase_err_zero_iff p i b).1 hprec).resolve_left (ne_true_of_eq_false hzero)
    obtain ⟨hidle, -⟩ := (decodeMsel_eq_mIdleReject_iff _ _ _).1 hreject
    rw [mstate_of_multiplierPhase_resq_cons hempty hq] at hidle
    cases hidle

end Sys2Proof.Machine
end

