-- ==== Sys2Proof/Proofs/DrivenSteps.lean ====
section
/-! One driven step from an empty result channel (spec/42_controller.md R170, 70_reset_and_hazards.md R241, R249): what
each row of IDLE, COMPUTE and DONE leads to. The rules of accepting, magnitude and sign are those of Laws/Step. -/

namespace Sys2Proof.Machine

/-! What the operations write, the channel holding an element (40 R124, R126) -/

theorem Block.accept_mstate_of_cons {b : Block} {w : OpByte} {rest : List OpByte} (precision : BitVec 4)
    (h : b.opq = w :: rest) : (b.accept precision).mstate = .compute := by rw [Block.accept_of_cons precision h]

theorem Block.accept_cnt_of_cons {b : Block} {w : OpByte} {rest : List OpByte} (precision : BitVec 4)
    (h : b.opq = w :: rest) : (b.accept precision).cnt = 0#4 := by rw [Block.accept_of_cons precision h]

theorem Block.accept_prec_of_cons {b : Block} {w : OpByte} {rest : List OpByte} (precision : BitVec 4)
    (h : b.opq = w :: rest) : (b.accept precision).prec = precision := by rw [Block.accept_of_cons precision h]

theorem Block.accept_opq_of_cons {b : Block} {w : OpByte} {rest : List OpByte} (precision : BitVec 4)
    (h : b.opq = w :: rest) : (b.accept precision).opq = rest := by rw [Block.accept_of_cons precision h]

theorem Block.magnitudeBit_cnt_of_cons {b : Block} {x : Bool} {rest : List Bool} (h : b.wbq = x :: rest) :
    b.magnitudeBit.cnt = b.cnt + 1#4 := by rw [Block.magnitudeBit_of_cons h]

theorem Block.magnitudeBit_wbq_of_cons {b : Block} {x : Bool} {rest : List Bool} (h : b.wbq = x :: rest) :
    b.magnitudeBit.wbq = rest := by rw [Block.magnitudeBit_of_cons h]

/-! Waiting (40 R122, R125, 70 R249) -/

/-- A missing bit leaves the block in COMPUTE as it is. -/
theorem multiplierPhase_of_missing_bit {b : Block} (p : Params) (i : Inputs) (hm : b.mstate = .compute)
    (hw : b.wbq = []) : multiplierPhase p i b = b := by
  simp [multiplierPhase, hm, hw]

/-- A missing `valid` or operand leaves the block in IDLE as it is. -/
theorem multiplierPhase_of_missing_operand {i : Inputs} {b : Block} (p : Params) (hm : b.mstate = .idle)
    (h : i.valid = false ∨ b.opq = []) : multiplierPhase p i b = b := by
  rcases h with hv | hq
  · simp [multiplierPhase, hm, hv]
  · simp [multiplierPhase, hm, hq]

/-- A step whose multiplier phase leaves the block only makes the pushes of its turn and clears OUT_VALID. -/
theorem drivenStep_of_stay {p : Params} {d : HostTurn} {b : Block} (hq : b.resq = [])
    (hstay : multiplierPhase p d.inputs (b.feed d) = b.feed d) : drivenStep p d b = some (b.feed d).noResult := by
  rw [drivenStep, pipelineStep, hstay, accumulatorPhase_of_nil p d.inputs (by rw [Block.feed_resq, hq])]

theorem drivenStep_of_missing_bit {d : HostTurn} {b : Block} (p : Params) (hm : b.mstate = .compute)
    (hq : b.resq = []) (hw : b.wbq ++ d.bits = []) : drivenStep p d b = some (b.feed d).noResult :=
  drivenStep_of_stay hq
    (multiplierPhase_of_missing_bit p d.inputs (by rw [Block.feed_mstate, hm]) (by rw [Block.feed_wbq, hw]))

theorem drivenStep_of_missing_operand {d : HostTurn} {b : Block} (p : Params) (hm : b.mstate = .idle)
    (hq : b.resq = []) (h : d.inputs.valid = false ∨ b.opq ++ d.ops = []) :
    drivenStep p d b = some (b.feed d).noResult :=
  drivenStep_of_stay hq
    (multiplierPhase_of_missing_operand p (by rw [Block.feed_mstate, hm]) (by rwa [Block.feed_opq]))

/-- The turn that makes the pushes of two turns and drives the inputs of the second. -/
def HostTurn.merge (d e : HostTurn) : HostTurn where
  ops := d.ops ++ e.ops
  bits := d.bits ++ e.bits
  inputs := e.inputs

theorem Block.feed_noResult_feed (d e : HostTurn) (b : Block) :
    (b.feed d).noResult.feed e = (b.feed (d.merge e)).noResult := by
  simp only [Block.feed_eq, Block.noResult, HostTurn.merge, List.append_assoc]

/-- Pushes made before a step that waited are pushes made before the next step: nothing reads OUT_VALID. -/
theorem drivenStep_noResult_feed (p : Params) (d e : HostTurn) (b : Block) :
    drivenStep p e (b.feed d).noResult = drivenStep p (d.merge e) b := by
  rw [drivenStep, Block.feed_noResult_feed, pipelineStep_noResult, drivenStep, HostTurn.merge]

theorem drivenSteps_singleton (p : Params) (d : HostTurn) (b : Block) : drivenSteps p [d] b = drivenStep p d b :=
  Option.bind_fun_some _

theorem drivenSteps_cons_of_step {p : Params} {d : HostTurn} {b b' : Block} (ds : List HostTurn)
    (h : drivenStep p d b = some b') : drivenSteps p (d :: ds) b = drivenSteps p ds b' := by
  rw [drivenSteps_cons, h, Option.bind_some]

/-- 70 R249: a step that waited, followed by another, is the other with the pushes of both before it. -/
theorem drivenSteps_of_stay {p : Params} {d : HostTurn} {b : Block} (e : HostTurn)
    (h : drivenStep p d b = some (b.feed d).noResult) : drivenSteps p [d, e] b = drivenSteps p [d.merge e] b := by
  rw [drivenSteps_cons_of_step _ h, drivenSteps_singleton, drivenSteps_singleton, drivenStep_noResult_feed]

/-! Taking an operand up and taking its bits (40 R124, R126, R127) -/

theorem drivenStep_accept {d : HostTurn} {b : Block} {w : OpByte} {ops : List OpByte} (p : Params)
    (hm : b.mstate = .idle) (hv : d.inputs.valid = true) (hone : 1 ≤ d.inputs.precision.toNat) (hq : b.resq = [])
    (ho : b.opq ++ d.ops = w :: ops) :
    drivenStep p d b = some ((b.feed d).accept d.inputs.precision).noResult :=
  pipelineStep_accept (by rw [Block.feed_mstate, hm]) hv ((precisionLegal_iff _).2 ⟨hone, by omega⟩)
    (by rw [Block.feed_resq, hq]) (by rw [Block.feed_opq, ho])

theorem drivenStep_magnitude {d : HostTurn} {b : Block} {x : Bool} {rest : List Bool} (p : Params)
    (hm : b.mstate = .compute) (hq : b.resq = []) (hw : b.wbq ++ d.bits = x :: rest)
    (hc : b.cnt.toNat + 1 < b.prec.toNat) :
    drivenStep p d b = some (b.feed d).magnitudeBit.noResult := by
  have hfeed := (Block.feed_wbq d b).trans hw
  rw [Block.magnitudeBit_of_cons hfeed]
  exact pipelineStep_magnitude (by rw [Block.feed_mstate, hm]) (by rw [Block.feed_resq, hq]) hfeed
    (by rwa [Block.feed_cnt, Block.feed_prec])

theorem drivenStep_sign {d : HostTurn} {b : Block} {x : Bool} {rest : List Bool} (p : Params)
    (hm : b.mstate = .compute) (hq : b.resq = []) (hw : b.wbq ++ d.bits = x :: rest)
    (hc : b.cnt.toNat + 1 = b.prec.toNat) :
    drivenStep p d b = some (b.feed d).signBit.noResult := by
  have hfeed := (Block.feed_wbq d b).trans hw
  rw [Block.signBit_of_cons hfeed]
  exact pipelineStep_sign (by rw [Block.feed_mstate, hm]) (by rw [Block.feed_resq, hq]) hfeed
    (by rwa [Block.feed_cnt, Block.feed_prec])

/-! Emitting and consuming in one step (40 R128, 41 R150) -/

/-- The record emitted is the one consumed. -/
theorem pipelineStep_emit {p : Params} {b : Block} (i : Inputs) (hdepth : 1 ≤ p.resqDepth) (hm : b.mstate = .done)
    (hq : b.resq = []) (hprec : b.prec ≠ 0#4) :
    pipelineStep p i b = some (Block.accumulate p (contribution b.record i.refExp) { b.emit with resq := [] }) := by
  have hemit : multiplierPhase p i b = b.emit := by
    rw [multiplierPhase, hm]
    exact if_pos (by rw [hq]; exact hdepth)
  rw [pipelineStep, hemit]
  exact accumulatorPhase_of_cons i (by rw [Block.emit_resq, hq, List.nil_append]) hprec

end Sys2Proof.Machine
end

