-- ==== Sys2Proof/Proofs/Operation.lean ====
section
/-! One operation as a run of driven steps (spec/70_reset_and_hazards.md R241, R249): COMPUTE takes the bits one by one,
and the step in DONE emits the record and adds its aligned product. -/

namespace Sys2Proof.Machine

open Sys2Proof.Safety

/-! The registers in COMPUTE -/

/-- In COMPUTE at a step boundary the magnitude bits `had` have been taken (40 R134). -/
structure Block.HasTaken (had : List Bool) (b : Block) : Prop where
  mstate : b.mstate = .compute
  resq : b.resq = []
  cnt : b.cnt.toNat = had.length
  lacc : b.lacc.toNat = b.mu.toNat * bitsValue had
  work : b.work.toNat = b.mu.toNat * 2 ^ had.length

theorem Block.HasTaken.feed {had : List Bool} {b : Block} (h : b.HasTaken had) (d : HostTurn) :
    (b.feed d).HasTaken had := by
  rw [Block.feed_eq]
  exact ⟨h.mstate, h.resq, h.cnt, h.lacc, h.work⟩

theorem Block.HasTaken.noResult {had : List Bool} {b : Block} (h : b.HasTaken had) : b.noResult.HasTaken had :=
  ⟨h.mstate, h.resq, h.cnt, h.lacc, h.work⟩

/-- 40 R126: the next magnitude bit counts at its weight, within the widths of the registers. -/
theorem toNat_add_bit {mu : BitVec 4} {had : List Bool} {lacc : BitVec 19} {work : BitVec 18} (x : Bool)
    (hlen : had.length + 1 ≤ 14) (hlacc : lacc.toNat = mu.toNat * bitsValue had)
    (hwork : work.toNat = mu.toNat * 2 ^ had.length) :
    (if x then lacc + work.setWidth 19 else lacc).toNat = mu.toNat * bitsValue (had ++ [x]) := by
  have hmag : MagnitudeOf mu had.length lacc := ⟨bitsValue had, bitsValue_lt had, hlacc⟩
  have hsum := toInt_add_bit x hmag hlen hwork
  rw [toInt_of_magnitudeOf hmag (by omega),
    toInt_of_magnitudeOf (magnitudeOf_add_bit x hmag (by omega) hwork) hlen] at hsum
  rw [bitsValue_append, Nat.mul_add, ← hlacc]
  cases x with
  | false => simp
  | true => simp only [if_true, Bool.toNat_true, Nat.one_mul] at hsum ⊢; omega

theorem Block.HasTaken.magnitudeBit {had : List Bool} {b : Block} {x : Bool} {rest : List Bool}
    (h : b.HasTaken had) (hw : b.wbq = x :: rest) (hc : had.length + 1 < b.prec.toNat) :
    b.magnitudeBit.HasTaken (had ++ [x]) := by
  rw [Block.magnitudeBit_of_cons hw]
  constructor
  case mstate => exact h.mstate
  case resq => exact h.resq
  case cnt => rw [toNat_add_one (by rw [h.cnt]; omega), h.cnt, List.length_append, List.length_singleton]
  case lacc => exact toNat_add_bit x (by omega) h.lacc h.work
  case work =>
    rw [List.length_append, List.length_singleton]
    exact toNat_shiftLeft_one (by omega) h.work

theorem Block.HasTaken.of_blockInv {p : Params} {had : List Bool} {b : Block} (hinv : BlockInv p b)
    (hm : b.mstate = .compute) (hq : b.resq = []) (hcnt : had.length = b.cnt.toNat)
    (hlacc : b.lacc.toNat = b.mu.toNat * bitsValue had) : b.HasTaken had := by
  obtain ⟨-, -, hwork, -⟩ := hinv.of_compute hm
  exact ⟨hm, hq, hcnt.symm, hlacc, by rw [hwork, hcnt]⟩

/-- 40 R124: an operand that was just accepted has no bit yet. -/
theorem Block.HasTaken.accept {b : Block} {w : OpByte} {ops : List OpByte} (precision : BitVec 4)
    (ho : b.opq = w :: ops) (hq : b.resq = []) : (b.accept precision).HasTaken [] := by
  rw [Block.accept_of_cons precision ho]
  exact ⟨rfl, hq, rfl, rfl, (BitVec.toNat_setWidth_of_le (by norm_num)).trans (Nat.mul_one _).symm⟩

/-! The product (41 R159) -/

/-- What the operation in the registers is to add to ACC when its weight is complete (41 R159). -/
def Block.alignedProduct (b : Block) (weight : Int) (refExp : BitVec 4) : Int :=
  align (floatSignCorrect b.fsign (b.mu.toNat * weight)) b.fexp.toNat refExp.toNat

/-- The record of the registers in DONE adds the product. -/
theorem contribution_record {b : Block} {had : List Bool} (refExp : BitVec 4) (hprec : b.prec.toNat = had.length + 1)
    (hlacc : b.lacc.toNat = b.mu.toNat * bitsValue had) :
    contribution b.record refExp = b.alignedProduct (weightValue (had ++ [b.wsign])) refExp := by
  rw [contribution, weightSignCorrect_eq_product (r := b.record) hprec hlacc]
  rfl

theorem floatSignCorrect_eq_mul (f : Bool) (v : Int) : floatSignCorrect f v = (if f then -1 else 1) * v := by
  cases f
  · exact (one_mul v).symm
  · exact (neg_one_mul v).symm

/-- The one number on the scale of the reference exponent is the aligned product. -/
theorem Block.eq_alignedProduct_of_onScale {b : Block} {weight c : Int} {refExp : BitVec 4}
    (h : OnScale ((if b.fsign then -1 else 1) * b.mu.toNat * weight) b.fexp.toNat refExp.toNat c) :
    c = b.alignedProduct weight refExp := by
  rw [Block.alignedProduct, floatSignCorrect_eq_mul, ← mul_assoc]
  exact onScale_iff_eq_align.1 h

/-- 41 R159: the product of an operand that was just accepted, by the number of its word. -/
theorem Block.eq_alignedProduct_of_accept {b : Block} {w : OpByte} {ops : List OpByte} {weight c : Int}
    {refExp : BitVec 4} (precision : BitVec 4) (ho : b.opq = w :: ops)
    (h : OnScale ((if w.getLsbD 7 then -1 else 1) * (8 + (w.toNat : Int) % 8) * weight) (w.toNat / 8 % 16)
      refExp.toNat c) :
    c = (b.accept precision).noResult.alignedProduct weight refExp := by
  apply Block.eq_alignedProduct_of_onScale
  have hexp : (decodeOperand w).exponent.toNat = w.toNat / 8 % 16 := by
    rw [decodeOperand_exponent, BitVec.toNat_ofNat]
  have hunit : ((mantissaUnit (decodeOperand w).mantissa).toNat : Int) = 8 + (w.toNat : Int) % 8 := by
    exact_mod_cast mantissaUnit_decodeOperand_toNat w
  rw [← hexp, ← hunit] at h
  rw [Block.accept_of_cons precision ho]
  exact h

/-! The run -/

/-- The run adds `c` to ACC once, by its last step, and leaves `ops` and `bits` in the input channels. -/
def CompletesWith (p : Params) (turns : List HostTurn) (b : Block) (c : Int) (ops : List OpByte)
    (bits : List Bool) : Prop :=
  ∃ b', drivenSteps p turns b = some b' ∧ EndsWithSum p c b b' ∧ b'.opq = ops ∧ b'.wbq = bits

theorem endsWithSum_accumulate {b b₀ : Block} (p : Params) (c : Int) (hacc : b₀.acc = b.acc) (herr : b₀.err = b.err)
    (hm : b₀.mstate = .idle) (hq : b₀.resq = []) : EndsWithSum p c b (b₀.accumulate p c) where
  err := by rw [Block.accumulate_err, hacc, herr]
  result _ := by
    rw [Block.accumulate_acc, Block.accumulate_outValid, Block.accumulate_mstate, Block.accumulate_resq, hacc]
    exact ⟨rfl, rfl, hm, hq⟩

/-- A first step that writes neither ACC nor ERR. -/
theorem CompletesWith.cons {p : Params} {d : HostTurn} {turns : List HostTurn} {b b₁ : Block} {c : Int}
    {ops : List OpByte} {bits : List Bool} (hstep : drivenStep p d b = some b₁) (hacc : b₁.acc = b.acc)
    (herr : b₁.err = b.err) (h : CompletesWith p turns b₁ c ops bits) :
    CompletesWith p (d :: turns) b c ops bits := by
  obtain ⟨b', hrun, ⟨hsumErr, hsum⟩, hchannels⟩ := h
  rw [hacc, herr] at hsumErr
  rw [hacc] at hsum
  exact ⟨b', (drivenSteps_cons_of_step turns hstep).trans hrun, ⟨hsumErr, hsum⟩, hchannels⟩

/-- The last step: the record is emitted and consumed. -/
theorem completesWith_of_done {p : Params} {b : Block} {had : List Bool} (d : HostTurn) (hdepth : 1 ≤ p.resqDepth)
    (hm : b.mstate = .done) (hq : b.resq = []) (hprec : b.prec.toNat = had.length + 1)
    (hlacc : b.lacc.toNat = b.mu.toNat * bitsValue had) :
    CompletesWith p [d] b (b.alignedProduct (weightValue (had ++ [b.wsign])) d.inputs.refExp) (b.opq ++ d.ops)
      (b.wbq ++ d.bits) := by
  have hne : b.prec ≠ 0#4 := by rintro hzero; simp [hzero] at hprec
  rw [← contribution_record d.inputs.refExp hprec hlacc]
  refine ⟨_, (drivenSteps_singleton p d b).trans (pipelineStep_emit d.inputs hdepth ?_ ?_ ?_), ?_, ?_, ?_⟩
  all_goals rw [Block.feed_eq]
  · exact hm
  · exact hq
  · exact hne
  · exact endsWithSum_accumulate p _ rfl rfl rfl rfl
  · rw [Block.accumulate_opq]; rfl
  · rw [Block.accumulate_wbq]; rfl

/-- The last step but one takes the sign bit. -/
theorem completesWith_of_last_bit {p : Params} {b : Block} {had rest : List Bool} {x : Bool} (d last : HostTurn)
    (hdepth : 1 ≤ p.resqDepth) (h : b.HasTaken had) (hprec : had.length + 1 = b.prec.toNat)
    (hw : b.wbq ++ d.bits = x :: rest) :
    CompletesWith p [d, last] b (b.alignedProduct (weightValue (had ++ [x])) last.inputs.refExp)
      (b.opq ++ pushedOps [d, last]) (rest ++ last.bits) := by
  have hstep := drivenStep_sign p h.mstate h.resq hw (by rw [h.cnt, hprec])
  have hfeed : b.feed d = { b with opq := b.opq ++ d.ops, wbq := x :: rest } := by rw [Block.feed_eq, hw]
  rw [hfeed, Block.signBit_of_cons rfl] at hstep
  refine CompletesWith.cons hstep rfl rfl ?_
  rw [pushedOps_cons, pushedOps_cons, pushedOps_nil, List.append_nil, ← List.append_assoc]
  exact completesWith_of_done last hdepth rfl h.resq hprec.symm h.lacc

/-- The next bit has come before the step that takes it, so it stands at the head of WBQ after the pushes. -/
theorem exists_wbq_eq_cons {q l : List Bool} {d : HostTurn} {ds : List HostTurn} {x : Bool}
    (h : q ++ pushedBits (d :: ds) = x :: l) (hcome : 0 < (q ++ d.bits).length) :
    ∃ rest, q ++ d.bits = x :: rest ∧ rest ++ pushedBits ds = l := by
  obtain ⟨y, rest, hq⟩ := List.exists_cons_of_length_pos hcome
  rw [pushedBits_cons, ← List.append_assoc, hq] at h
  obtain ⟨rfl, rfl⟩ := List.cons.inj h
  exact ⟨rest, hq, rfl⟩

theorem Block.alignedProduct_magnitude_step (d : HostTurn) (b : Block) (weight : Int) (refExp : BitVec 4) :
    (b.feed d).magnitudeBit.noResult.alignedProduct weight refExp = b.alignedProduct weight refExp := by
  simp [Block.alignedProduct]

/-- 70 R241: from COMPUTE, one step for each bit still to come and one to emit, by induction on those bits. -/
theorem completesWith_of_hasTaken {p : Params} {mid : List HostTurn} {b : Block} {had bits more : List Bool} {x : Bool}
    (last : HostTurn) (hdepth : 1 ≤ p.resqDepth) (h : b.HasTaken had)
    (hprec : had.length + bits.length + 1 = b.prec.toNat) (hmid : mid.length = bits.length + 1)
    (hbits : b.wbq ++ pushedBits (mid ++ [last]) = bits ++ x :: more)
    (hcome : ∀ k ≤ bits.length, k < (b.wbq ++ pushedBits (mid.take (k + 1))).length) :
    CompletesWith p (mid ++ [last]) b (b.alignedProduct (weightValue (had ++ bits ++ [x])) last.inputs.refExp)
      (b.opq ++ pushedOps (mid ++ [last])) more := by
  induction bits generalizing mid b had with
  | nil =>
    obtain ⟨d, rfl⟩ := List.length_eq_one_iff.1 hmid
    obtain ⟨rest, hw, rfl⟩ := exists_wbq_eq_cons hbits (by simpa using hcome 0 le_rfl)
    simpa using completesWith_of_last_bit d last hdepth h (by simpa using hprec) hw
  | cons y bits ih =>
    obtain ⟨d, mid, rfl⟩ := List.exists_cons_of_length_eq_add_one hmid
    obtain ⟨rest, hw, hrest⟩ := exists_wbq_eq_cons hbits (by simpa using hcome 0 (Nat.zero_le _))
    simp only [List.length_cons] at hprec hmid hcome
    have hstep := drivenStep_magnitude p h.mstate h.resq hw (by rw [h.cnt]; omega)
    have hfeed := (Block.feed_wbq d b).trans hw
    have htaken := ((h.feed d).magnitudeBit hfeed (by rw [Block.feed_prec]; omega)).noResult
    have hwbq : (b.feed d).magnitudeBit.noResult.wbq = rest := Block.magnitudeBit_wbq_of_cons hfeed
    have hrun := ih (mid := mid) htaken ?prec (by omega) (by rw [hwbq]; exact hrest) ?come
    case prec =>
      rw [List.length_append, List.length_singleton, Block.noResult_prec, Block.magnitudeBit_prec, Block.feed_prec]
      omega
    case come =>
      intro k hk
      have hnext := hcome (k + 1) (by omega)
      rw [List.take_succ_cons, pushedBits_cons, ← List.append_assoc, hw] at hnext
      rw [hwbq]
      simpa using hnext
    rw [Block.alignedProduct_magnitude_step] at hrun
    exact CompletesWith.cons hstep (by simp) (by simp) (by simpa using hrun)

/-- 70 R241: from IDLE, one step more. -/
theorem completesWith_of_idle {p : Params} {first last : HostTurn} {mid : List HostTurn} {b : Block} {w : OpByte}
    {ops : List OpByte} {bits more : List Bool} {x : Bool} {c : Int} (hdepth : 1 ≤ p.resqDepth)
    (hmid : mid.length = bits.length + 1) (hv : first.inputs.valid = true)
    (hprec : first.inputs.precision.toNat = bits.length + 1) (hm : b.mstate = .idle) (hq : b.resq = [])
    (ho : b.opq ++ first.ops = w :: ops) (hbits : b.wbq ++ pushedBits (first :: mid ++ [last]) = bits ++ x :: more)
    (hcome : ∀ k ≤ bits.length, k < (b.wbq ++ pushedBits ((first :: mid).take (k + 2))).length)
    (hc : OnScale ((if w.getLsbD 7 then -1 else 1) * (8 + (w.toNat : Int) % 8) * weightValue (bits ++ [x]))
      (w.toNat / 8 % 16) last.inputs.refExp.toNat c) :
    CompletesWith p (first :: mid ++ [last]) b c (ops ++ pushedOps (mid ++ [last])) more := by
  have hfeed := (Block.feed_opq first b).trans ho
  have hstep := drivenStep_accept p hm hv (by omega) hq ho
  have htaken := (Block.HasTaken.accept first.inputs.precision hfeed (by rw [Block.feed_resq, hq])).noResult
  obtain rfl := Block.eq_alignedProduct_of_accept first.inputs.precision hfeed hc
  have hrun := completesWith_of_hasTaken (mid := mid) (bits := bits) (x := x) (more := more) last hdepth htaken
    ?prec hmid ?bits ?come
  case prec => simp [Block.accept_prec_of_cons _ hfeed, hprec]
  case bits => simpa using hbits
  case come => simpa using hcome
  exact CompletesWith.cons hstep (by simp) (by simp) (by simpa [Block.accept_opq_of_cons _ hfeed] using hrun)

/-- Settles O52: the runs complete the operation; a step that waits makes its pushes, which are then made before the
next one. -/
theorem oneOperationAddsItsProduct : Obligations.OneOperationAddsItsProduct := by
  refine ⟨?idle, ?compute, ?stall⟩
  case idle =>
    intro p first last mid b w ops bits more x c ⟨_, hdepth, _⟩ hmid hv hprec hm hq ho hbits hcome hc
    obtain ⟨b', hrun, hsum, hchannels⟩ := completesWith_of_idle hdepth hmid hv hprec hm hq ho hbits hcome hc
    exact ⟨b', hrun, hsum, fun _ => hchannels⟩
  case compute =>
    intro p mid last b had bits more x c ⟨_, hdepth, _⟩ hinv hm hq hcnt hlacc hprec hmid hbits hcome hc
    have htaken := Block.HasTaken.of_blockInv hinv hm hq hcnt hlacc
    obtain rfl := Block.eq_alignedProduct_of_onScale hc
    obtain ⟨b', hrun, hsum, hchannels⟩ := completesWith_of_hasTaken last hdepth htaken hprec hmid hbits hcome
    exact ⟨b', hrun, hsum, fun _ => hchannels⟩
  case stall =>
    intro p d e b hq hmissing
    have hstep : drivenStep p d b = some (b.feed d).noResult := by
      obtain ⟨hm, hw⟩ | ⟨hm, hop⟩ := hmissing
      · exact drivenStep_of_missing_bit p hm hq hw
      · exact drivenStep_of_missing_operand p hm hq hop
    refine ⟨?_, fun b' _ => ?_⟩
    · rw [hstep, Block.feed_eq]
      rfl
    · rw [drivenSteps_of_stay e hstep]
      rfl

end Sys2Proof.Machine
end

