-- ==== Sys2Proof/Proofs/BeforeTheResult.lean ====
section
/-! Before the last step of an operation (spec/70_reset_and_hazards.md R241, spec/20_memory.md R68): a step of COMPUTE
counts one bit or, if none has come, nothing, so DONE is not left before `precision + 2` steps nor without all bits. -/

namespace Sys2Proof.Machine

open Sys2Proof.Safety

/-- `b'` is inside an operation and shows no result; ACC and ERR are those of `b`. -/
structure Block.Busy (b b' : Block) : Prop where
  mstate : b'.mstate ≠ .idle
  outValid : b'.outValid = false
  acc : b'.acc = b.acc
  err : b'.err = b.err

/-- In COMPUTE at a step boundary, with bits still to come and no result shown. -/
structure Block.Computing (b : Block) : Prop where
  mstate : b.mstate = .compute
  resq : b.resq = []
  cnt : b.cnt.toNat < b.prec.toNat
  outValid : b.outValid = false

/-- The steps or the bits of `turns` are too few to leave DONE, counted from the bits that COMPUTE has taken. -/
def Block.EndsEarly (b : Block) (turns : List HostTurn) : Prop :=
  b.cnt.toNat + turns.length ≤ b.prec.toNat ∨ b.cnt.toNat + (b.wbq ++ pushedBits turns).length < b.prec.toNat

/-- A step without a bit uses a turn up and no bit. -/
theorem Block.EndsEarly.stall {b : Block} {d : HostTurn} {ds : List HostTurn} (h : b.EndsEarly (d :: ds)) :
    (b.feed d).noResult.EndsEarly ds := by
  simp only [Block.EndsEarly, Block.noResult_cnt, Block.noResult_prec, Block.noResult_wbq, Block.feed_cnt,
    Block.feed_prec, Block.feed_wbq, List.length_append, List.length_cons, pushedBits_cons] at h ⊢
  omega

/-- A step that takes a bit counts it, and uses up a turn and the bit. -/
theorem Block.EndsEarly.magnitude {b : Block} {d : HostTurn} {ds : List HostTurn} {x : Bool} {rest : List Bool}
    (h : b.EndsEarly (d :: ds)) (hw : b.wbq ++ d.bits = x :: rest) (hc : b.cnt.toNat + 1 < b.prec.toNat) :
    (b.feed d).magnitudeBit.noResult.EndsEarly ds := by
  have hfeed := (Block.feed_wbq d b).trans hw
  have hcnt : (b.cnt + 1#4).toNat = b.cnt.toNat + 1 := toNat_add_one (by omega)
  have hlen : b.wbq.length + d.bits.length = rest.length + 1 := by rw [← List.length_append, hw, List.length_cons]
  simp only [Block.EndsEarly, Block.noResult_cnt, Block.noResult_prec, Block.noResult_wbq,
    Block.magnitudeBit_cnt_of_cons hfeed, Block.magnitudeBit_prec, Block.magnitudeBit_wbq_of_cons hfeed,
    Block.feed_cnt, Block.feed_prec, hcnt, List.length_append, List.length_cons, pushedBits_cons] at h ⊢
  omega

/-- A step that takes the last bit is the last turn. -/
theorem Block.EndsEarly.sign {b : Block} {d : HostTurn} {ds : List HostTurn} {x : Bool} {rest : List Bool}
    (h : b.EndsEarly (d :: ds)) (hw : b.wbq ++ d.bits = x :: rest) (hc : b.cnt.toNat + 1 = b.prec.toNat) :
    ds = [] := by
  rw [Block.EndsEarly, pushedBits_cons, ← List.append_assoc, hw] at h
  simp only [List.length_append, List.length_cons] at h
  exact List.length_eq_zero_iff.1 (by omega)

/-- One step of COMPUTE: it goes on computing with the end as early as before, or it was the last turn. -/
theorem Block.Computing.drivenStep_cases {b : Block} {d : HostTurn} {ds : List HostTurn} (p : Params)
    (h : b.Computing) (hearly : b.EndsEarly (d :: ds)) :
    ∃ b₁, drivenStep p d b = some b₁ ∧ b.Busy b₁ ∧ (b₁.Computing ∧ b₁.EndsEarly ds ∨ ds = []) := by
  obtain ⟨hm, hq, hlt, -⟩ := h
  rcases hw : b.wbq ++ d.bits with _ | ⟨x, rest⟩
  case nil =>
    refine ⟨_, drivenStep_of_missing_bit p hm hq hw, ⟨?_, rfl, ?_, ?_⟩, .inl ⟨⟨?_, ?_, ?_, rfl⟩, hearly.stall⟩⟩
    all_goals simp [hm, hq, hlt]
  case cons =>
    have hfeed := (Block.feed_wbq d b).trans hw
    rcases Nat.lt_or_ge (b.cnt.toNat + 1) b.prec.toNat with hc | hc
    · have hcnt : (b.cnt + 1#4).toNat = b.cnt.toNat + 1 := toNat_add_one (by omega)
      refine ⟨_, drivenStep_magnitude p hm hq hw hc, ⟨?_, rfl, ?_, ?_⟩,
        .inl ⟨⟨?_, ?_, ?_, rfl⟩, hearly.magnitude hw hc⟩⟩
      all_goals simp [hm, hq, Block.magnitudeBit_cnt_of_cons hfeed, hcnt, hc]
    · have hlast : b.cnt.toNat + 1 = b.prec.toNat := by omega
      refine ⟨_, drivenStep_sign p hm hq hw hlast, ⟨?_, rfl, ?_, ?_⟩, .inr (hearly.sign hw hlast)⟩
      all_goals simp [Block.signBit_of_cons hfeed]

theorem Block.Busy.trans {b c d : Block} (h : b.Busy c) (h' : c.Busy d) : b.Busy d :=
  ⟨h'.mstate, h'.outValid, h'.acc.trans h.acc, h'.err.trans h.err⟩

/-- 70 R241, by induction on the turns: a run that ends early ends inside the operation. -/
theorem Block.Computing.exists_busy {ds : List HostTurn} {b : Block} (p : Params) (h : b.Computing)
    (hearly : b.EndsEarly ds) : ∃ b', drivenSteps p ds b = some b' ∧ b.Busy b' := by
  induction ds generalizing b with
  | nil => exact ⟨b, rfl, by simp [h.mstate], h.outValid, rfl, rfl⟩
  | cons d ds ih =>
    obtain ⟨b₁, hstep, hbusy, ⟨hnext, hearly₁⟩ | rfl⟩ := h.drivenStep_cases p hearly
    · obtain ⟨b', hrun, hbusy'⟩ := ih hnext hearly₁
      exact ⟨b', (drivenSteps_cons_of_step ds hstep).trans hrun, hbusy.trans hbusy'⟩
    · exact ⟨b₁, (drivenSteps_singleton p d b).trans hstep, hbusy⟩

/-- Settles O53: the first step starts computing with no bit taken, and the rest of the run ends early. -/
theorem noResultBeforeTheLastStepOfAnOperation : Obligations.NoResultBeforeTheLastStepOfAnOperation := by
  intro p first rest b herr hv hone hm hq hne hshort
  obtain ⟨w, ops, ho⟩ := List.exists_cons_of_ne_nil hne
  have hfeed := (Block.feed_opq first b).trans ho
  have hstep := drivenStep_accept p hm hv hone hq ho
  have hcomputing : ((b.feed first).accept first.inputs.precision).noResult.Computing := by
    refine ⟨Block.accept_mstate_of_cons _ hfeed, by simp [hq], ?_, rfl⟩
    simpa [Block.accept_cnt_of_cons _ hfeed, Block.accept_prec_of_cons _ hfeed] using Nat.succ_le_iff.1 hone
  have hearly : ((b.feed first).accept first.inputs.precision).noResult.EndsEarly rest := by
    simpa [Block.EndsEarly, Block.accept_cnt_of_cons _ hfeed, Block.accept_prec_of_cons _ hfeed] using hshort
  obtain ⟨b', hrun, hbusy⟩ := hcomputing.exists_busy p hearly
  refine ⟨b', (drivenSteps_cons_of_step rest hstep).trans hrun, ?_, ?_, hbusy.outValid, hbusy.acc.trans (by simp)⟩
  · simpa [faulted, hbusy.err] using herr
  · simp [Block.ready, hbusy.mstate]

end Sys2Proof.Machine
end

