-- ==== Sys2Proof/Proofs/Reset.lean ====
section
/-! H.RESET (spec/70_reset_and_hazards.md R230). -/

namespace Sys2Proof.Machine

/-- Settles O30: the move puts the block of 10 R46 in place. -/
theorem resetSetsTheWholeBlock : Obligations.ResetSetsTheWholeBlock :=
  fun _ => hostMove_of_host _

end Sys2Proof.Machine
end
